-- ==== Sys2Proof/Word.lean ====
section
/-! DEFINITION. The word types of the block: widths only, no operation. -/

namespace Sys2Proof

/-- An unsigned 8-bit value: a V register, a timer, a memory cell, the immediate kk (R30, R39, R45, R103). -/
abbrev Byte := BitVec 8

/-- An unsigned 16-bit value: an instruction word, I, PC, a stack entry (R100, R34, R35, R36). -/
abbrev Word := BitVec 16

/-- The 12-bit address immediate nnn (R103). -/
abbrev Addr12 := BitVec 12

/-- The index of a general register, 0x0 to 0xF (R30). -/
abbrev Reg := Fin 16

/-- The 4-bit row count n of DRW (R103). -/
abbrev Nibble := BitVec 4

/-- The register file V0 to VF (R30). -/
abbrev RegFile := Vector Byte 16

/-- The display buffer, one row a machine row; bit x of row y is the pixel in column x (R41). -/
abbrev Display := Vector (BitVec 64) 32

/-- A map of the 16 keys; bit k is true while key k is down (R42, R44). -/
abbrev KeyMap := BitVec 16

/-- The index of the flag register VF (R31). -/
abbrev VF : Reg := 15

end Sys2Proof
end

