-- ==== Sys2Proof/Syntax.lean ====
section
/-! DEFINITION. The instructions: one constructor per row of the opcode table (R108), carrying that
instruction's operand fields (R111). -/

namespace Sys2Proof

/-- The 34 instructions in the order of R108. Bits that the decoder ignores (R107) are no operands; the
y field of SHR and SHL is one the table gives, decoded and not used (R210, R211). -/
inductive Instr where
  /-- `CLS` (R282) -/
  | cls
  /-- `RET` (R171) -/
  | ret
  /-- `JP nnn` (R172) -/
  | jp (nnn : Addr12)
  /-- `CALL nnn` (R173) -/
  | call (nnn : Addr12)
  /-- `SE Vx,kk` (R174) -/
  | seImm (x : Reg) (kk : Byte)
  /-- `SNE Vx,kk` (R175) -/
  | sneImm (x : Reg) (kk : Byte)
  /-- `SE Vx,Vy` (R176) -/
  | seReg (x y : Reg)
  /-- `LD Vx,kk` (R201) -/
  | ldImm (x : Reg) (kk : Byte)
  /-- `ADD Vx,kk` (R202) -/
  | addImm (x : Reg) (kk : Byte)
  /-- `LD Vx,Vy` (R203) -/
  | ldReg (x y : Reg)
  /-- `OR Vx,Vy` (R204) -/
  | orReg (x y : Reg)
  /-- `AND Vx,Vy` (R205) -/
  | andReg (x y : Reg)
  /-- `XOR Vx,Vy` (R206) -/
  | xorReg (x y : Reg)
  /-- `ADD Vx,Vy` (R207) -/
  | addReg (x y : Reg)
  /-- `SUB Vx,Vy` (R208) -/
  | sub (x y : Reg)
  /-- `SHR Vx` (R210) -/
  | shr (x y : Reg)
  /-- `SUBN Vx,Vy` (R209) -/
  | subn (x y : Reg)
  /-- `SHL Vx` (R211) -/
  | shl (x y : Reg)
  /-- `SNE Vx,Vy` (R177) -/
  | sneReg (x y : Reg)
  /-- `LD I,nnn` (R251) -/
  | ldI (nnn : Addr12)
  /-- `JP V0,nnn` (R178) -/
  | jpV0 (nnn : Addr12)
  /-- `RND Vx,kk` (R212) -/
  | rnd (x : Reg) (kk : Byte)
  /-- `DRW Vx,Vy,n` (R283) -/
  | drw (x y : Reg) (n : Nibble)
  /-- `SKP Vx` (R312) -/
  | skp (x : Reg)
  /-- `SKNP Vx` (R313) -/
  | sknp (x : Reg)
  /-- `LD Vx,DT` (R314) -/
  | ldVxDT (x : Reg)
  /-- `LD Vx,K` (R316) -/
  | ldVxK (x : Reg)
  /-- `LD DT,Vx` (R317) -/
  | ldDTVx (x : Reg)
  /-- `LD ST,Vx` (R318) -/
  | ldSTVx (x : Reg)
  /-- `ADD I,Vx` (R252) -/
  | addI (x : Reg)
  /-- `LD F,Vx` (R253) -/
  | ldF (x : Reg)
  /-- `LD B,Vx` (R254) -/
  | ldB (x : Reg)
  /-- `LD [I],Vx` (R255) -/
  | storeRegs (x : Reg)
  /-- `LD Vx,[I]` (R256) -/
  | loadRegs (x : Reg)
  deriving DecidableEq, Repr

end Sys2Proof
end

