-- ==== Sys2Proof/WellFormed.lean ====
section
/-! DEFINITION. The checks on terms the machine is given: which words are instructions at all (R109) and
which program images may be loaded (R392). An `Instr` needs no check: its fields have the widths of R101,
and no field value makes an instruction illegal (R102). -/

namespace Sys2Proof

/-- The word selects an instruction: it is none of the words R109 lists, class by class. -/
def wordKnown (w : Word) : Bool :=
  let kk := w.toNat % 256
  match w.toNat / 4096 with
  | 0x0 => [0xE0, 0xEE].contains kk
  | 0x8 => !([0x8, 0x9, 0xA, 0xB, 0xC, 0xD, 0xF].contains (w.toNat % 16))
  | 0xE => [0x9E, 0xA1].contains kk
  | 0xF => [0x07, 0x0A, 0x15, 0x18, 0x1E, 0x29, 0x33, 0x55, 0x65].contains kk
  | _ => true

/-- The longest program image, 4096 - 0x200 bytes (R7, R392). -/
def maxImageLength : Nat := 3584

/-- The image fits from 0x200 to the end of memory (R392). -/
def imageFits (image : List Byte) : Bool := image.length ≤ maxImageLength

end Sys2Proof
end

