-- ==== Sys2Proof/Decode.lean ====
section
/-! DEFINITION. Decoding: field extraction (R101), the two-level dispatch (R105, R106), the decoded form
(R111), then the encoder and the opcode map of R108, all written from 30_encoding.md. -/

namespace Sys2Proof

/-- The first-level dispatch key, bits 15:12 (R101). -/
def fieldClass (w : Word) : BitVec 4 := w.extractLsb' 12 4

/-- The field x, bits 11:8 (R101). -/
def fieldX (w : Word) : Reg := (w.extractLsb' 8 4).toFin

/-- The field y, bits 7:4 (R101). -/
def fieldY (w : Word) : Reg := (w.extractLsb' 4 4).toFin

/-- The field kk, bits 7:0 (R101). -/
def fieldKK (w : Word) : Byte := w.extractLsb' 0 8

/-- The field nnn, bits 11:0 (R101). -/
def fieldNNN (w : Word) : Addr12 := w.extractLsb' 0 12

/-- The field n, bits 3:0 (R101). -/
def fieldN (w : Word) : Nibble := w.extractLsb' 0 4

/-- What the decoder makes of a word: an instruction with its operands, or `Unknown(w)` (R111). -/
inductive Decoded where
  | instr (i : Instr)
  | unknown (w : Word)
  deriving DecidableEq, Repr

/-- Class 0x0: the secondary discriminator is the low byte, bits 11:8 are ignored (R106). -/
def decodeClass0 (w : Word) : Decoded :=
  match fieldKK w with
  | 0xE0#8 => .instr .cls
  | 0xEE#8 => .instr .ret
  | _ => .unknown w

/-- Class 0x8: the secondary discriminator is the low nibble (R106). -/
def decodeClass8 (w : Word) : Decoded :=
  match fieldN w with
  | 0x0#4 => .instr (.ldReg (fieldX w) (fieldY w))
  | 0x1#4 => .instr (.orReg (fieldX w) (fieldY w))
  | 0x2#4 => .instr (.andReg (fieldX w) (fieldY w))
  | 0x3#4 => .instr (.xorReg (fieldX w) (fieldY w))
  | 0x4#4 => .instr (.addReg (fieldX w) (fieldY w))
  | 0x5#4 => .instr (.sub (fieldX w) (fieldY w))
  | 0x6#4 => .instr (.shr (fieldX w) (fieldY w))
  | 0x7#4 => .instr (.subn (fieldX w) (fieldY w))
  | 0xE#4 => .instr (.shl (fieldX w) (fieldY w))
  | _ => .unknown w

/-- Class 0xE: the secondary discriminator is the low byte (R106). -/
def decodeClassE (w : Word) : Decoded :=
  match fieldKK w with
  | 0x9E#8 => .instr (.skp (fieldX w))
  | 0xA1#8 => .instr (.sknp (fieldX w))
  | _ => .unknown w

/-- Class 0xF: the secondary discriminator is the low byte (R106). -/
def decodeClassF (w : Word) : Decoded :=
  match fieldKK w with
  | 0x07#8 => .instr (.ldVxDT (fieldX w))
  | 0x0A#8 => .instr (.ldVxK (fieldX w))
  | 0x15#8 => .instr (.ldDTVx (fieldX w))
  | 0x18#8 => .instr (.ldSTVx (fieldX w))
  | 0x1E#8 => .instr (.addI (fieldX w))
  | 0x29#8 => .instr (.ldF (fieldX w))
  | 0x33#8 => .instr (.ldB (fieldX w))
  | 0x55#8 => .instr (.storeRegs (fieldX w))
  | 0x65#8 => .instr (.loadRegs (fieldX w))
  | _ => .unknown w

/-- The decoder: total, and a function of the word alone (R105, R111). -/
def decode (w : Word) : Decoded :=
  match fieldClass w with
  | 0x0#4 => decodeClass0 w
  | 0x1#4 => .instr (.jp (fieldNNN w))
  | 0x2#4 => .instr (.call (fieldNNN w))
  | 0x3#4 => .instr (.seImm (fieldX w) (fieldKK w))
  | 0x4#4 => .instr (.sneImm (fieldX w) (fieldKK w))
  | 0x5#4 => .instr (.seReg (fieldX w) (fieldY w))
  | 0x6#4 => .instr (.ldImm (fieldX w) (fieldKK w))
  | 0x7#4 => .instr (.addImm (fieldX w) (fieldKK w))
  | 0x8#4 => decodeClass8 w
  | 0x9#4 => .instr (.sneReg (fieldX w) (fieldY w))
  | 0xA#4 => .instr (.ldI (fieldNNN w))
  | 0xB#4 => .instr (.jpV0 (fieldNNN w))
  | 0xC#4 => .instr (.rnd (fieldX w) (fieldKK w))
  | 0xD#4 => .instr (.drw (fieldX w) (fieldY w) (fieldN w))
  | 0xE#4 => decodeClassE w
  | _ => decodeClassF w

/-- The instruction word of two bytes, the byte at the lower address in bits 15:8 (R73, R100). -/
def wordOfBytes (hi lo : Byte) : Word := hi ++ lo

/-- The byte an instruction word has at the lower address (R100). -/
def highByte (w : Word) : Byte := w.extractLsb' 8 8

/-- The byte an instruction word has at the higher address (R100). -/
def lowByte (w : Word) : Byte := w.extractLsb' 0 8

/-- Decoding a byte sequence: the first instruction and the bytes after it; none where the bytes end inside
the word. -/
def decodeBytes : List Byte → Option (Decoded × List Byte)
  | hi :: lo :: rest => some (decode (wordOfBytes hi lo), rest)
  | _ => none

/-- The instruction the decoder reads from a row of the opcode table whose bits are `w` (the table's rows are
one 16-bit word, stored high byte first). -/
def decodeTableWord (nbits w : Nat) : Option Instr :=
  let word := BitVec.ofNat 16 (w % 2 ^ nbits)
  match decodeBytes [highByte word, lowByte word] with
  | some (.instr i, _) => some i
  | _ => none

/-! ### The encoder -/

/-- Format NNN: class, then nnn (R104). -/
def wordNNN (cls : BitVec 4) (nnn : Addr12) : Word := cls ++ nnn

/-- Format XKK: class, x, kk; also format XS, where kk is the sub-op (R104). -/
def wordXKK (cls : BitVec 4) (x : Reg) (kk : Byte) : Word := cls ++ (BitVec.ofFin x : BitVec 4) ++ kk

/-- Formats XYS, XYN and XYU: class, x, y, low nibble (R104). -/
def wordXYN (cls : BitVec 4) (x y : Reg) (n : BitVec 4) : Word :=
  cls ++ (BitVec.ofFin x : BitVec 4) ++ (BitVec.ofFin y : BitVec 4) ++ n

/-- The word of an instruction, by the patterns of R108. DESIGN CHOICE, safe (log 16): bits the decoder
ignores are written 0, the conventional spelling (R107). -/
def encode : Instr → Word
  | .cls => wordXKK 0x0 0 0xE0
  | .ret => wordXKK 0x0 0 0xEE
  | .jp nnn => wordNNN 0x1 nnn
  | .call nnn => wordNNN 0x2 nnn
  | .seImm x kk => wordXKK 0x3 x kk
  | .sneImm x kk => wordXKK 0x4 x kk
  | .seReg x y => wordXYN 0x5 x y 0x0
  | .ldImm x kk => wordXKK 0x6 x kk
  | .addImm x kk => wordXKK 0x7 x kk
  | .ldReg x y => wordXYN 0x8 x y 0x0
  | .orReg x y => wordXYN 0x8 x y 0x1
  | .andReg x y => wordXYN 0x8 x y 0x2
  | .xorReg x y => wordXYN 0x8 x y 0x3
  | .addReg x y => wordXYN 0x8 x y 0x4
  | .sub x y => wordXYN 0x8 x y 0x5
  | .shr x y => wordXYN 0x8 x y 0x6
  | .subn x y => wordXYN 0x8 x y 0x7
  | .shl x y => wordXYN 0x8 x y 0xE
  | .sneReg x y => wordXYN 0x9 x y 0x0
  | .ldI nnn => wordNNN 0xA nnn
  | .jpV0 nnn => wordNNN 0xB nnn
  | .rnd x kk => wordXKK 0xC x kk
  | .drw x y n => wordXYN 0xD x y n
  | .skp x => wordXKK 0xE x 0x9E
  | .sknp x => wordXKK 0xE x 0xA1
  | .ldVxDT x => wordXKK 0xF x 0x07
  | .ldVxK x => wordXKK 0xF x 0x0A
  | .ldDTVx x => wordXKK 0xF x 0x15
  | .ldSTVx x => wordXKK 0xF x 0x18
  | .addI x => wordXKK 0xF x 0x1E
  | .ldF x => wordXKK 0xF x 0x29
  | .ldB x => wordXKK 0xF x 0x33
  | .storeRegs x => wordXKK 0xF x 0x55
  | .loadRegs x => wordXKK 0xF x 0x65

/-- The bits of an instruction's word that the decoder ignores: 11:8 of CLS and RET, 3:0 of SE Vx,Vy and
SNE Vx,Vy, and no other (R107). -/
def ignoredBits : Instr → Word
  | .cls => 0x0F00#16
  | .ret => 0x0F00#16
  | .seReg _ _ => 0x000F#16
  | .sneReg _ _ => 0x000F#16
  | .jp _ | .call _ | .seImm _ _ | .sneImm _ _ | .ldImm _ _ | .addImm _ _ | .ldReg _ _ | .orReg _ _
  | .andReg _ _ | .xorReg _ _ | .addReg _ _ | .sub _ _ | .shr _ _ | .subn _ _ | .shl _ _ | .ldI _ | .jpV0 _
  | .rnd _ _ | .drw _ _ _ | .skp _ | .sknp _ | .ldVxDT _ | .ldVxK _ | .ldDTVx _ | .ldSTVx _ | .addI _ | .ldF _
  | .ldB _ | .storeRegs _ | .loadRegs _ => 0x0000#16

/-! ### The opcode map as the table of R108 -/

/-- A row of the opcode map: a word selects it when `w &&& mask = pattern` (R108). -/
structure Row where
  pattern : Word
  mask : Word
  deriving DecidableEq, Repr

/-- The word selects the row (R108). -/
def Row.selectedBy (r : Row) (w : Word) : Bool := w &&& r.mask == r.pattern

/-- The row of an instruction, by the match and mask columns of R108. -/
def rowOf : Instr → Row
  | .cls => ⟨0x00E0#16, 0xF0FF#16⟩
  | .ret => ⟨0x00EE#16, 0xF0FF#16⟩
  | .jp _ => ⟨0x1000#16, 0xF000#16⟩
  | .call _ => ⟨0x2000#16, 0xF000#16⟩
  | .seImm _ _ => ⟨0x3000#16, 0xF000#16⟩
  | .sneImm _ _ => ⟨0x4000#16, 0xF000#16⟩
  | .seReg _ _ => ⟨0x5000#16, 0xF000#16⟩
  | .ldImm _ _ => ⟨0x6000#16, 0xF000#16⟩
  | .addImm _ _ => ⟨0x7000#16, 0xF000#16⟩
  | .ldReg _ _ => ⟨0x8000#16, 0xF00F#16⟩
  | .orReg _ _ => ⟨0x8001#16, 0xF00F#16⟩
  | .andReg _ _ => ⟨0x8002#16, 0xF00F#16⟩
  | .xorReg _ _ => ⟨0x8003#16, 0xF00F#16⟩
  | .addReg _ _ => ⟨0x8004#16, 0xF00F#16⟩
  | .sub _ _ => ⟨0x8005#16, 0xF00F#16⟩
  | .shr _ _ => ⟨0x8006#16, 0xF00F#16⟩
  | .subn _ _ => ⟨0x8007#16, 0xF00F#16⟩
  | .shl _ _ => ⟨0x800E#16, 0xF00F#16⟩
  | .sneReg _ _ => ⟨0x9000#16, 0xF000#16⟩
  | .ldI _ => ⟨0xA000#16, 0xF000#16⟩
  | .jpV0 _ => ⟨0xB000#16, 0xF000#16⟩
  | .rnd _ _ => ⟨0xC000#16, 0xF000#16⟩
  | .drw _ _ _ => ⟨0xD000#16, 0xF000#16⟩
  | .skp _ => ⟨0xE09E#16, 0xF0FF#16⟩
  | .sknp _ => ⟨0xE0A1#16, 0xF0FF#16⟩
  | .ldVxDT _ => ⟨0xF007#16, 0xF0FF#16⟩
  | .ldVxK _ => ⟨0xF00A#16, 0xF0FF#16⟩
  | .ldDTVx _ => ⟨0xF015#16, 0xF0FF#16⟩
  | .ldSTVx _ => ⟨0xF018#16, 0xF0FF#16⟩
  | .addI _ => ⟨0xF01E#16, 0xF0FF#16⟩
  | .ldF _ => ⟨0xF029#16, 0xF0FF#16⟩
  | .ldB _ => ⟨0xF033#16, 0xF0FF#16⟩
  | .storeRegs _ => ⟨0xF055#16, 0xF0FF#16⟩
  | .loadRegs _ => ⟨0xF065#16, 0xF0FF#16⟩

end Sys2Proof
end

