-- ==== Sys2Proof/Config.lean ====
section
/-! DEFINITION. The parameters the spec takes as arguments (R8, R47), the calls a host can make, and the free
values. -/

namespace Sys2Proof

/-- What an unknown opcode does to PC (R144; 92 D6). -/
inductive UnknownOpcodePolicy where
  /-- The state stays as before the step. -/
  | halt
  /-- PC moves past the word. -/
  | skip
  deriving DecidableEq, Repr

/-- Whether a key wait completes on a level or on an edge (R315; 92 D16). -/
inductive KeyWaitTrigger where
  | level
  | edge
  deriving DecidableEq, Repr

/-- What SKP and SKNP read for a key value above 0xF (R311; 92 D18). -/
inductive KeyIndexPolicy where
  | notPressed
  | lowNibble
  /-- A free boolean input of the step. -/
  | draw
  deriving DecidableEq, Repr

/-- A call of the host into the block, or a change it makes between calls (R140, R365, R367). -/
inductive HostCall where
  /-- `step()` -/
  | step
  /-- `tick()` -/
  | tick
  /-- `load(image)` -/
  | load (image : List Byte)
  /-- The host sets the key map between two calls. -/
  | setKeys (keys : KeyMap)
  deriving DecidableEq, Repr, Inhabited

/-- The parameters of R8. `rng`, a source of bytes that each RND takes one from, is an input and stands in the
state as a supply. -/
structure Config where
  /-- The 80 font bytes loaded at address 0 (R391). -/
  font : Vector Byte 80
  unknownOpcodePolicy : UnknownOpcodePolicy
  keyWaitTrigger : KeyWaitTrigger
  keyIndexPolicy : KeyIndexPolicy
  /-- `pickKey`, as the table of its answers: a set of qualifying keys and the key of it that is stored. Where a
  set is not listed with one of its own keys, the answer is `freePick` of the set (92 D17; log 8). -/
  pickKey : List (KeyMap × Reg)
  resetV : RegFile
  resetI : Word
  resetDT : Byte
  resetST : Byte
  resetDisplay : Display
  /-- The initial bytes of the cells that no load writes; a cell not listed here holds 0. -/
  resetMem : List Host.Cell
  deriving DecidableEq, Repr

/-- The conventional font. PRESUMED, unsafe (log 1): R391 gives it as a candidate value only, from
general knowledge; FONT is an open parameter. -/
def Config.conventionalFont : Vector Byte 80 := #v[
  0xF0, 0x90, 0x90, 0x90, 0xF0,  0x20, 0x60, 0x20, 0x20, 0x70,
  0xF0, 0x10, 0xF0, 0x80, 0xF0,  0xF0, 0x10, 0xF0, 0x10, 0xF0,
  0x90, 0x90, 0xF0, 0x10, 0x10,  0xF0, 0x80, 0xF0, 0x10, 0xF0,
  0xF0, 0x80, 0xF0, 0x90, 0xF0,  0xF0, 0x10, 0x20, 0x40, 0x40,
  0xF0, 0x90, 0xF0, 0x90, 0xF0,  0xF0, 0x90, 0xF0, 0x10, 0xF0,
  0xF0, 0x90, 0xF0, 0x90, 0x90,  0xE0, 0x90, 0xE0, 0x90, 0xE0,
  0xF0, 0x80, 0x80, 0x80, 0xF0,  0xE0, 0x90, 0x90, 0x90, 0xE0,
  0xF0, 0x80, 0xF0, 0x80, 0xF0,  0xF0, 0x80, 0xF0, 0x80, 0x80]

/-- The parameters State.reset holds. DESIGN CHOICE, unsafe (log 1, log 2, log 3, log 4): the spec leaves
each of them open, and a claim that does not fix one must hold for every value of it. -/
def Config.standard : Config where
  font := Config.conventionalFont
  unknownOpcodePolicy := .halt
  keyWaitTrigger := .level
  keyIndexPolicy := .draw
  pickKey := []
  resetV := Vector.replicate 16 0
  resetI := 0
  resetDT := 0
  resetST := 0
  resetDisplay := Vector.replicate 32 0
  resetMem := []

/-- FREE VALUE (log 7): the n-th byte of the injected generator once the queued bytes are used up. -/
opaque Config.freeRandomByte : Nat → Byte

/-- FREE VALUE (log 20): the n-th free boolean input of the `Draw` policy, in its bit 0, once the queued ones are
used up. -/
opaque Config.freeChoice : Nat → Byte

/-- FREE VALUE (log 8): which of a set's keys `pickKey` answers where the parameter's table does not say. -/
opaque Config.freePick : KeyMap → Byte

/-- FREE VALUE (log 9): the n-th call of a host whose calls are free. -/
opaque Config.freeCall : Nat → HostCall

end Sys2Proof
end

