-- ==== Sys2Proof/Machine/State.lean ====
section
/-! DEFINITION. The state of the block and of its interface as plain data, the ways a step stops, and the
state after reset. -/

namespace Sys2Proof.Machine

/-- The two execution states (R43): modes of progress, not privilege levels (R352). -/
inductive Mode where
  | running
  /-- Waiting for a key whose code goes into register `r`. -/
  | awaitingKey (r : Reg)
  deriving DecidableEq, Repr

/-- The error kinds, closed at five (R340), with their payloads. A machine step that ends in `fault` is a call
that returned this error and left every piece of state as it was (R342), to a host that halts emulation on it
(R343). To a host that goes on calling, the same value is an output of a step that goes on. -/
inductive Fault where
  /-- Raised by a fetch, DRW, LD B, LD [I] and LD Vx,[I] that would touch an address above 4095; `a` is the
  lowest such address (R72, R340). Safe: the spec's own error. -/
  | addressOutOfRange (a : Nat)
  /-- Raised by CALL with 16 entries on the stack (R37, R173). Safe: the spec's own error. -/
  | stackOverflow
  /-- Raised by RET with an empty stack (R38, R171). Safe: the spec's own error. -/
  | stackUnderflow
  /-- Raised by a fetched word that selects no instruction, where the policy is to halt; under the policy to
  skip the same value is an output of a step that goes on (R144). Safe: the spec's own error. -/
  | unknownOpcode (w : Word)
  /-- Returned by a load of an image longer than 3584 bytes, `len` its length (R392); a machine step hands it
  out as an output and goes on. Safe: the spec's own error. -/
  | programTooLarge (len : Nat)
  deriving DecidableEq, Repr

/-- The reasons a step has no meaning. -/
inductive Refusal where
  /-- Raised by exec's arm of an instruction that has no meaning yet. Safe: the model stops. -/
  | notModelled (mnemonic : String)
  /-- Raised by a `step()` before any successful load, to which the spec gives no meaning (R394). Safe: the
  model stops. -/
  | stepBeforeLoad
  deriving DecidableEq, Repr

/-- The host's calls after the queued ones (R140; log 9). Every infinite sequence is free: a plan `free` with
`Config.freeCall` any sequence. -/
inductive CallPlan where
  /-- These calls, `first` and then `more`, again and again. -/
  | repeats (first : HostCall) (more : List HostCall)
  /-- Free calls, of which `taken` were made. -/
  | free (taken : Nat)
  deriving DecidableEq, Repr

/-- What the host does when a `step()` returns an error that leaves the state as it was (R343; log 10). -/
inductive ErrorReaction where
  /-- It halts emulation: the run ends in the fault. -/
  | stop
  /-- It logs the error and goes on calling (R361). -/
  | goOn
  deriving DecidableEq, Repr

/-- What the block hands out: the display port's events (R363), and an error that a call returned without
ending the run (R144, R343, R392). -/
inductive Output where
  | clear
  | present
  | error (e : Fault)
  deriving DecidableEq, Repr

/-- A supply of free input bytes: those already fixed by whoever sets up the run, and how many were taken.
The n-th byte after the queue is a free value. -/
structure Supply where
  queue : List Byte
  taken : Nat
  deriving DecidableEq, Repr

/-- The state: the block's tuple (Mem, V, I, PC, Stack, DT, ST, D, Mode, LastKeys) of 10_state.md, then the
host's side of the interface. -/
structure State where
  /-- V0 to VF (R30). -/
  v : RegFile
  /-- The index register I (R34). -/
  i : Word
  /-- The program counter (R35). -/
  pc : Word
  /-- The return addresses, oldest first (R36). -/
  stack : List Word
  /-- The delay timer (R39). -/
  dt : Byte
  /-- The sound timer (R40). -/
  st : Byte
  /-- The display buffer D (R41). -/
  display : Display
  mode : Mode
  /-- The hidden key snapshot of the edge trigger (R44). -/
  lastKeys : KeyMap
  /-- Memory (R45): the cells that differ from what an unlisted address reads as, addresses strictly rising. -/
  mem : List Host.Cell
  /-- The key map, owned by the host (R42). -/
  keys : KeyMap
  /-- Whether a load has succeeded (R394, R395). -/
  loaded : Bool
  /-- The parameters, constant (R47). -/
  cfg : Config
  /-- The injected random generator (R366). -/
  rng : Supply
  /-- The free boolean inputs of the `Draw` policy (R311). -/
  choices : Supply
  /-- The host's coming calls, next one first (R140). -/
  calls : List HostCall
  /-- The host's calls after those (R140). -/
  plan : CallPlan
  /-- The host's reaction to an error (R343). -/
  onError : ErrorReaction
  /-- What the block has handed out, oldest first (R363). -/
  outputs : List Output
  deriving DecidableEq, Repr

/-- The block as constructed, before any load (R390): memory reads as the font and `resetMem`. DESIGN CHOICE
(log 12, log 17): the registers hold the reset parameters. -/
def State.constructed (c : Config) : State where
  v := c.resetV
  i := c.resetI
  pc := 0x200
  stack := []
  dt := c.resetDT
  st := c.resetST
  display := c.resetDisplay
  mode := .running
  lastKeys := 0
  mem := []
  keys := 0
  loaded := false
  cfg := c
  rng := ⟨[], 0⟩
  choices := ⟨[], 0⟩
  calls := []
  plan := .repeats .step []
  onError := .stop
  outputs := []

/-- The machine right after reset: the state after construction and a successful load (R48), of an image of
length 0 (R392), under the parameters `c`. -/
def State.resetUnder (c : Config) : State := { State.constructed c with loaded := true }

/-- The machine right after reset under the standard parameters. DESIGN CHOICE, unsafe (log 1 to 10): the value
of every field the spec leaves open. -/
def State.reset : State := State.resetUnder Config.standard

end Sys2Proof.Machine
end

