-- ==== Sys2Proof/Machine/Ops.lean ====
section
/-! DEFINITION. The named operations over registers, memory, stack, supplies and outputs. The block has no
trap mechanism (R346): an error is the outcome `fault` of a step that changes nothing (R342), so there is no
operation that takes an exception and none that returns from one. -/

namespace Sys2Proof.Machine

/-! ### Named updates: one home for each field -/

/-- `V[x]` (R11, R30). -/
def State.getV (s : State) (x : Reg) : Byte := s.v[x.val]

/-- `V[x] <- b` (R11, R32). -/
def State.setV (s : State) (x : Reg) (b : Byte) : State := { s with v := s.v.set x.val b }

/-- The whole register file. -/
def State.setRegs (s : State) (v : RegFile) : State := { s with v := v }

/-- `I <- w` (R11, R34). -/
def State.setI (s : State) (w : Word) : State := { s with i := w }

/-- `PC <- w` (R11, R35). -/
def State.setPc (s : State) (w : Word) : State := { s with pc := w }

def State.setStack (s : State) (l : List Word) : State := { s with stack := l }

/-- `DT <- b` (R39). -/
def State.setDT (s : State) (b : Byte) : State := { s with dt := b }

/-- `ST <- b` (R40). -/
def State.setST (s : State) (b : Byte) : State := { s with st := b }

def State.setDisplay (s : State) (d : Display) : State := { s with display := d }

def State.setMode (s : State) (m : Mode) : State := { s with mode := m }

def State.setLastKeys (s : State) (k : KeyMap) : State := { s with lastKeys := k }

def State.setMem (s : State) (m : List Host.Cell) : State := { s with mem := m }

def State.setKeys (s : State) (k : KeyMap) : State := { s with keys := k }

def State.setRng (s : State) (q : Supply) : State := { s with rng := q }

def State.setChoices (s : State) (q : Supply) : State := { s with choices := q }

def State.setCalls (s : State) (l : List HostCall) : State := { s with calls := l }

def State.setPlan (s : State) (p : CallPlan) : State := { s with plan := p }

/-- The block hands out `o` (R13, R363). -/
def State.emit (s : State) (o : Output) : State := { s with outputs := s.outputs ++ [o] }

/-! ### Memory -/

/-- The last address of memory (R45, R70). -/
def maxAddress : Nat := 4095

/-- What an unlisted address reads as, the reset contents: the font at 0 to 79, `resetMem` elsewhere, and 0
where `resetMem` lists nothing (R48, R391, R393; log 4). -/
def resetByte (c : Config) (a : Nat) : Byte :=
  if h : a < 80 then c.font[a] else (c.resetMem.lookup a).getD 0

/-- The byte at `a`: the listed one, else what an unlisted address reads as. -/
def Memory.read (base : Nat → Byte) (a : Nat) : List Host.Cell → Byte
  | [] => base a
  | (k, b) :: rest => if k = a then b else Memory.read base a rest

/-- The memory without any entry for `a`. -/
def Memory.erase (a : Nat) (m : List Host.Cell) : List Host.Cell := m.filter (fun c => c.1 != a)

/-- The memory with an entry for `a` put in its place by address. -/
def Memory.insert (a : Nat) (b : Byte) : List Host.Cell → List Host.Cell
  | [] => [(a, b)]
  | (k, c) :: rest => if a < k then (a, b) :: (k, c) :: rest else (k, c) :: Memory.insert a b rest

/-- The byte `b` stored at `a`, in canonical form: no entry where `a` unlisted already reads as `b`. -/
def Memory.write (base : Nat → Byte) (a : Nat) (b : Byte) (m : List Host.Cell) : List Host.Cell :=
  if b = base a then Memory.erase a m else Memory.insert a b (Memory.erase a m)

/-- The bytes stored at `a`, `a + 1`, …, in that order. -/
def Memory.writeBytes (base : Nat → Byte) (a : Nat) : List Byte → List Host.Cell → List Host.Cell
  | [], m => m
  | b :: bs, m => Memory.writeBytes base (a + 1) bs (Memory.write base a b m)

/-- The canonical form: addresses strictly rising and inside memory, no entry that an unlisted address would
read as. -/
abbrev Memory.wf (base : Nat → Byte) (m : List Host.Cell) : Prop :=
  m.Pairwise (fun c d => c.1 < d.1) ∧ ∀ c ∈ m, c.1 ≤ maxAddress ∧ c.2 ≠ base c.1

/-- `MemRead(a, 1)`, its range check apart (R12). -/
def State.readByte (s : State) (a : Nat) : Byte := Memory.read (resetByte s.cfg) a s.mem

/-- The `n` bytes from `a`, their range check apart. -/
def State.readBytes (s : State) (a n : Nat) : List Byte := (List.range n).map (fun k => s.readByte (a + k))

/-- `MemWrite` of the bytes at `a`, `a + 1`, …, their range check apart (R12). -/
def State.writeBytes (s : State) (a : Nat) (bs : List Byte) : State :=
  s.setMem (Memory.writeBytes (resetByte s.cfg) a bs s.mem)

/-- The range check of an access to the `n` bytes from `a`: the lowest address of them above 4095, none if
there is none (R72, R76, R344). Addresses are exact naturals and never wrap. -/
def badAddress (a n : Nat) : Option Nat :=
  if n = 0 ∨ a + n ≤ maxAddress + 1 then none else some (max a (maxAddress + 1))

/-! ### Call stack -/

/-- The stack's capacity (R36). -/
def stackCapacity : Nat := 16

/-- `push(a)`: none where the stack is full (R37). -/
def State.push (s : State) (a : Word) : Option State :=
  if s.stack.length < stackCapacity then some (s.setStack (s.stack ++ [a])) else none

/-- `pop()`: the most recently pushed entry, none where the stack is empty (R38). -/
def State.pop (s : State) : Option (Word × State) :=
  match s.stack.getLast? with
  | some a => some (a, s.setStack s.stack.dropLast)
  | none => none

/-! ### Control -/

/-- Past the next instruction: `PC <- (PC + 2) mod 65536` (R16, R170). -/
def State.skipWord (s : State) : State := s.setPc (s.pc + 2)

/-- A skip taken on a condition (R170). -/
def State.skipIf (s : State) (c : Bool) : State := if c then s.skipWord else s

/-! ### Free inputs -/

/-- The next byte of a supply: the queued one, else the free value of its number. -/
def Supply.next (free : Nat → Byte) (q : Supply) : Byte := q.queue.headD (free q.taken)

/-- The supply with its next byte taken. -/
def Supply.advance (q : Supply) : Supply := ⟨q.queue.tail, q.taken + 1⟩

/-- The byte that `draw rng()` takes next (R13, R366). -/
def State.randomByte (s : State) : Byte := s.rng.next Config.freeRandomByte

/-- The state after `draw rng()`. -/
def State.drawRandom (s : State) : State := s.setRng s.rng.advance

/-- The next free boolean input, in bit 0 (log 20). -/
def State.choiceByte (s : State) : Byte := s.choices.next Config.freeChoice

/-- The state after a free boolean input is taken. -/
def State.takeChoice (s : State) : State := s.setChoices s.choices.advance

/-! ### Outputs -/

/-- The sound-active output (R362). -/
def State.soundActive (s : State) : Bool := s.st != 0

end Sys2Proof.Machine
end

