-- ==== Sys2Proof/Machine/Operands.lean ====
section
/-! DEFINITION. The operand forms: immediates (R103), the effective address I + k (R250), the key operand
(R311), and the sprite's coordinates (R284). Register operands are `State.getV` and `State.setV`. -/

namespace Sys2Proof.Machine

/-- `zext_16(nnn)` (R103). -/
def zextAddr (nnn : Addr12) : Word := nnn.setWidth 16

/-- `zext_16(b)` of a register value, for the 16-bit sums of JP V0 and ADD I (R178, R252). -/
def zextByte (b : Byte) : Word := b.setWidth 16

/-- The first byte address of an access through I, an exact natural (R72, R250). -/
def State.base (s : State) : Nat := s.i.toNat

/-- The level of key `k` in a key map. -/
def keyBit (m : KeyMap) (k : Nat) : Bool := m.getLsbD k

/-- `keyDown(v)`: the level the key operand reads, and the state after the read, which has taken a free choice
only under the `Draw` policy for `v` above 0xF (R311). The choice is bit 0 of the free byte (log 20). -/
def State.keyDown (s : State) (v : Byte) : Bool × State :=
  if v.toNat ≤ 15 then (keyBit s.keys v.toNat, s)
  else
    match s.cfg.keyIndexPolicy with
    | .notPressed => (false, s)
    | .lowNibble => (keyBit s.keys (v.toNat % 16), s)
    | .draw => (s.choiceByte.getLsbD 0, s.takeChoice)

/-- A pixel's column and row. -/
abbrev Pixel := Fin 64 × Fin 32

/-- The pixels that the 1 bits of one sprite row land on, leftmost first: bit 7 at column `x0` (R280, R284). -/
def rowPixels (x0 y : Nat) (row : Byte) : List Pixel :=
  ((List.range 8).filter (fun b => row.getLsbD (7 - b))).map
    (fun b => (Fin.ofNat 64 (x0 + b), Fin.ofNat 32 y))

/-- The pixels that the 1 bits of a sprite land on, row by row from `y0` down (R283, R284). -/
def spritePixels (x0 : Nat) : Nat → List Byte → List Pixel
  | _, [] => []
  | y, row :: rows => rowPixels x0 y row ++ spritePixels x0 (y + 1) rows

/-- The three decimal digits of a byte, most significant first (R254). -/
def bcdDigits (v : Byte) : List Byte :=
  [BitVec.ofNat 8 (v.toNat / 100), BitVec.ofNat 8 (v.toNat / 10 % 10), BitVec.ofNat 8 (v.toNat % 10)]

end Sys2Proof.Machine
end

