-- ==== Sys2Proof/Machine/Flags.lean ====
section
/-! DEFINITION. The flag computations: every value VF gets as a side effect (R31), and the order in which an
instruction writes VF and its result (R200). -/

namespace Sys2Proof.Machine

/-- A flag as the value VF holds, 1 or 0, never a masked byte (R31, R211). -/
def flagByte (c : Bool) : Byte := if c then 1 else 0

/-- The carry out of bit 7: the unsigned sum exceeds 255 (R207). -/
def carryFlag (a b : Byte) : Bool := a.toNat + b.toNat > 255

/-- The flag of a subtraction `a - b`: `a` strictly greater (R208, R209). -/
def greaterFlag (a b : Byte) : Bool := a.toNat > b.toNat

/-- The bit a right shift moves out (R210). -/
def lowBitFlag (a : Byte) : Bool := a.getLsbD 0

/-- The bit a left shift moves out (R211). -/
def highBitFlag (a : Byte) : Bool := a.getLsbD 7

/-- VF first, then the result into Vx: with x = 0xF the result stands (R200). -/
def State.setFlagThen (s : State) (flag : Bool) (x : Reg) (result : Byte) : State :=
  (s.setV VF (flagByte flag)).setV x result

end Sys2Proof.Machine
end

