-- ==== Sys2Proof/Machine/Alu.lean ====
section
/-! DEFINITION. 42_alu.md: loads, bitwise operations, adds, subtracts, shifts and RND. Every operand is read
before the first write (R200). -/

namespace Sys2Proof.Machine

/-- LD Vx,kk (R201). -/
def execLdImm (x : Reg) (kk : Byte) (s : State) : Result := .next (s.setV x kk)

/-- ADD Vx,kk, without a flag (R202). -/
def execAddImm (x : Reg) (kk : Byte) (s : State) : Result :=
  .next (s.setV x (BitVec.ofNat 8 ((s.getV x).toNat + kk.toNat)))

/-- LD Vx,Vy (R203). -/
def execLdReg (x y : Reg) (s : State) : Result := .next (s.setV x (s.getV y))

/-- OR Vx,Vy (R204). -/
def execOr (x y : Reg) (s : State) : Result := .next (s.setV x (s.getV x ||| s.getV y))

/-- AND Vx,Vy (R205). -/
def execAnd (x y : Reg) (s : State) : Result := .next (s.setV x (s.getV x &&& s.getV y))

/-- XOR Vx,Vy (R206). -/
def execXor (x y : Reg) (s : State) : Result := .next (s.setV x (s.getV x ^^^ s.getV y))

/-- ADD Vx,Vy (R207). -/
def execAddReg (x y : Reg) (s : State) : Result :=
  let a := s.getV x
  let b := s.getV y
  .next (s.setFlagThen (carryFlag a b) x (BitVec.ofNat 8 (a.toNat + b.toNat)))

/-- SUB Vx,Vy (R208). -/
def execSub (x y : Reg) (s : State) : Result :=
  let a := s.getV x
  let b := s.getV y
  .next (s.setFlagThen (greaterFlag a b) x (BitVec.ofNat 8 (a.toNat + 256 - b.toNat)))

/-- SHR Vx; y is not used (R210). -/
def execShr (x _y : Reg) (s : State) : Result :=
  let a := s.getV x
  .next (s.setFlagThen (lowBitFlag a) x (a >>> 1))

/-- SUBN Vx,Vy (R209). -/
def execSubn (x y : Reg) (s : State) : Result :=
  let a := s.getV x
  let b := s.getV y
  .next (s.setFlagThen (greaterFlag b a) x (BitVec.ofNat 8 (b.toNat + 256 - a.toNat)))

/-- SHL Vx; y is not used (R211). -/
def execShl (x _y : Reg) (s : State) : Result :=
  let a := s.getV x
  .next (s.setFlagThen (highBitFlag a) x (a <<< 1))

/-- RND Vx,kk: one free byte, masked (R212). -/
def execRnd (x : Reg) (kk : Byte) (s : State) : Result :=
  .next (s.drawRandom.setV x (s.randomByte &&& kk))

end Sys2Proof.Machine
end

