-- ==== Sys2Proof/Machine/IndexMemory.lean ====
section
/-! DEFINITION. 43_index_memory.md: the instructions that write I or move bytes between registers and memory.
Every address is checked before any access (R250). -/

namespace Sys2Proof.Machine

/-- LD I,nnn (R251). -/
def execLdI (nnn : Addr12) (s : State) : Result := .next (s.setI (zextAddr nnn))

/-- ADD I,Vx, modulo 65536, no flag, no range check (R252). -/
def execAddI (x : Reg) (s : State) : Result := .next (s.setI (s.i + zextByte (s.getV x)))

/-- LD F,Vx: a direct computation on the whole byte, no memory read (R253). -/
def execLdF (x : Reg) (s : State) : Result := .next (s.setI (BitVec.ofNat 16 ((s.getV x).toNat * 5)))

/-- LD B,Vx: I is not modified (R254). -/
def execLdB (x : Reg) (s : State) : Result :=
  match badAddress s.base 3 with
  | some a => .fault (.addressOutOfRange a)
  | none => .next (s.writeBytes s.base (bcdDigits (s.getV x)))

/-- The registers V0 to Vx, in order. -/
def State.regsUpTo (s : State) (x : Reg) : List Byte := s.v.toList.take (x.val + 1)

/-- The register file with the bytes put into V0, V1, … from register `k` on. -/
def loadInto (v : RegFile) (k : Nat) : List Byte → RegFile
  | [] => v
  | b :: bs => loadInto (v.setIfInBounds k b) (k + 1) bs

/-- LD [I],Vx: I moves past the bytes stored (R255). -/
def execStoreRegs (x : Reg) (s : State) : Result :=
  match badAddress s.base (x.val + 1) with
  | some a => .fault (.addressOutOfRange a)
  | none =>
    .next ((s.writeBytes s.base (s.regsUpTo x)).setI (BitVec.ofNat 16 (s.base + x.val + 1)))

/-- LD Vx,[I]: I moves past the bytes loaded (R256). -/
def execLoadRegs (x : Reg) (s : State) : Result :=
  match badAddress s.base (x.val + 1) with
  | some a => .fault (.addressOutOfRange a)
  | none =>
    .next ((s.setRegs (loadInto s.v 0 (s.readBytes s.base (x.val + 1)))).setI
      (BitVec.ofNat 16 (s.base + x.val + 1)))

end Sys2Proof.Machine
end

