-- ==== Sys2Proof/Machine/Drawing.lean ====
section
/-! DEFINITION. 44_display.md: the XOR-set-pixel primitive, CLS and DRW. -/

namespace Sys2Proof.Machine

/-- `D[py][px]` (R11, R41). -/
def pixelAt (d : Display) (p : Pixel) : Bool := (d[p.2.val]).getLsbD p.1.val

/-- The buffer with every pixel 0 (R282). -/
def clearDisplay : Display := Vector.replicate 32 0

/-- `xorPixel`: the buffer with the pixel toggled, and the pixel's old value, which is the collision (R281). -/
def xorPixel (d : Display) (p : Pixel) : Display × Bool :=
  (d.set p.2.val (d[p.2.val] ^^^ BitVec.twoPow 64 p.1.val), pixelAt d p)

/-- The pixels toggled in order, and whether any toggle turned a set pixel off (R283). -/
def xorPixels : List Pixel → Display → Display × Bool
  | [], d => (d, false)
  | p :: ps, d =>
    let first := xorPixel d p
    let rest := xorPixels ps first.1
    (rest.1, first.2 || rest.2)

/-- CLS: every pixel 0, then `Clear()`, no `Present()` (R282). -/
def execCls (s : State) : Result := .next ((s.setDisplay clearDisplay).emit .clear)

/-- The pixels a DRW toggles: the sprite's `n` bytes are read from I, its corner from Vx and Vy (R283). -/
def State.drawPixels (s : State) (x y : Reg) (n : Nibble) : List Pixel :=
  spritePixels (s.getV x).toNat (s.getV y).toNat (s.readBytes s.base n.toNat)

/-- DRW Vx,Vy,n: the collision goes into VF last, then `Present()` (R283). -/
def execDrw (x y : Reg) (n : Nibble) (s : State) : Result :=
  match badAddress s.base n.toNat with
  | some a => .fault (.addressOutOfRange a)
  | none =>
    let drawn := xorPixels (s.drawPixels x y n) s.display
    .next (((s.setDisplay drawn.1).setV VF (flagByte drawn.2)).emit .present)

end Sys2Proof.Machine
end

