-- ==== Sys2Proof/Machine/InputTimers.lean ====
section
/-! DEFINITION. 45_input_timers.md: the key and timer instructions, and the await step that completes a key
wait (40_dispatch.md R145). -/

namespace Sys2Proof.Machine

/-- SKP Vx (R312). -/
def execSkp (x : Reg) (s : State) : Result :=
  let key := s.keyDown (s.getV x)
  .next (key.2.skipIf key.1)

/-- SKNP Vx (R313). -/
def execSknp (x : Reg) (s : State) : Result :=
  let key := s.keyDown (s.getV x)
  .next (key.2.skipIf (!key.1))

/-- LD Vx,DT (R314). -/
def execLdVxDT (x : Reg) (s : State) : Result := .next (s.setV x s.dt)

/-- LD DT,Vx (R317). -/
def execLdDTVx (x : Reg) (s : State) : Result := .next (s.setDT (s.getV x))

/-- LD ST,Vx (R318). -/
def execLdSTVx (x : Reg) (s : State) : Result := .next (s.setST (s.getV x))

/-- The snapshot `LastKeys <- Keys`, which only the edge trigger takes (R145, R316). -/
def State.snapshotKeys (s : State) : State :=
  match s.cfg.keyWaitTrigger with
  | .level => s
  | .edge => s.setLastKeys s.keys

/-- LD Vx,K: enter the wait, looking at no key yet (R316). -/
def execLdVxK (x : Reg) (s : State) : Result := .next ((s.setMode (.awaitingKey x)).snapshotKeys)

/-- Q, the set of the keys `k` with `qualifies(k)`, as a key map (R145, R315). -/
def State.qualifyingKeys (s : State) : KeyMap :=
  match s.cfg.keyWaitTrigger with
  | .level => s.keys
  | .edge => s.keys &&& ~~~s.lastKeys

/-- The keys of a set, lowest first. -/
def keysOf (q : KeyMap) : List Nat := (List.range 16).filter (keyBit q)

/-- One of the keys of a set: the only one, else a free one (log 8). -/
def freeKeyOf (q : KeyMap) : Nat :=
  match keysOf q with
  | [k] => k
  | ks => ks.getD ((Config.freePick q).toNat % ks.length) 0

/-- `pickKey(Q)`: one key of the set, the same whenever the set is the same (R47, R145; log 8). -/
def pickKey (c : Config) (q : KeyMap) : Nat :=
  match c.pickKey.lookup q with
  | some k => if keyBit q k.val then k.val else freeKeyOf q
  | none => freeKeyOf q

/-- A step in AwaitingKey(r) mode: it fetches nothing, and ends the wait if a key qualifies (R145). -/
def awaitStep (r : Reg) (s : State) : State :=
  if s.qualifyingKeys = 0 then s.snapshotKeys
  else (s.setV r (BitVec.ofNat 8 (pickKey s.cfg s.qualifyingKeys))).setMode .running

end Sys2Proof.Machine
end

