-- ==== Sys2Proof/Machine/Calls.lean ====
section
/-! DEFINITION. The block's entry points: fetch and `step()` (40_dispatch.md), `tick()` (R360), `load(image)`
(R392, R393), the key map (R365), and the host's queue of calls. -/

namespace Sys2Proof.Machine

/-! ### `step()` -/

/-- The word at PC, the byte at PC in bits 15:8 (R73, R141). -/
def State.fetchWord (s : State) : Word :=
  wordOfBytes (s.readByte s.pc.toNat) (s.readByte (s.pc.toNat + 1))

/-- The error of a word that selects no instruction: under `Halt` the step changes nothing, under `Skip` PC
moves past the word and the error is reported (R144). -/
def unknownStep (w : Word) (s : State) : Result :=
  match s.cfg.unknownOpcodePolicy with
  | .halt => .fault (.unknownOpcode w)
  | .skip => .next ((s.setPc (s.pc + 2)).emit (.error (.unknownOpcode w)))

/-- A step in Running mode: range check, fetch, decode, then the meaning at PC + 2 (R141, R142, R143, R344). -/
def runningStep (s : State) : Result :=
  match badAddress s.pc.toNat 2 with
  | some a => .fault (.addressOutOfRange a)
  | none =>
    match decode s.fetchWord with
    | .unknown w => unknownStep w s
    | .instr i => exec i (s.setPc (s.pc + 2))

/-- `step()` (R140); refused before the first load (R394). -/
def stepCall (s : State) : Result :=
  if s.loaded then
    match s.mode with
    | .running => runningStep s
    | .awaitingKey r => .next (awaitStep r s)
  else .refused .stepBeforeLoad

/-! ### `tick()` -/

/-- A timer one tick later: 0 is a floor (R39, R360). -/
def countDown (t : Byte) : Byte := if t.toNat > 0 then t - 1 else t

/-- `tick()` (R360). -/
def tick (s : State) : State := (s.setDT (countDown s.dt)).setST (countDown s.st)

/-! ### `load(image)` -/

/-- The reset of a successful load (R393). The host's side of the interface is not part of it; LastKeys, which
R393 does not name, stays as it was (log 14). -/
def resetWith (image : List Byte) (s : State) : State :=
  { s with
    mem := Memory.writeBytes (resetByte s.cfg) 0x200 image []
    v := s.cfg.resetV
    i := s.cfg.resetI
    dt := s.cfg.resetDT
    st := s.cfg.resetST
    stack := []
    display := s.cfg.resetDisplay
    mode := .running
    pc := 0x200
    loaded := true }

/-- `load(image)`: an image that does not fit changes nothing (R392). -/
def load (image : List Byte) (s : State) : Except Fault State :=
  if imageFits image then .ok (resetWith image s) else .error (.programTooLarge image.length)

/-! ### The host's calls -/

/-- One call of the host: what the block answers. A load that fails leaves the block as it was and the run goes on,
its error reported (R392; log 11). -/
def call (c : HostCall) (s : State) : Result :=
  match c with
  | .step => stepCall s
  | .tick => .next (tick s)
  | .load image =>
    match load image s with
    | .ok t => .next t
    | .error e => .next (s.emit (.error e))
  | .setKeys k => .next (s.setKeys k)

/-- The host's next call and the state with it made: the first queued one, else the next of the plan (R140;
log 9). -/
def State.takeCall (s : State) : HostCall × State :=
  match s.calls with
  | c :: rest => (c, s.setCalls rest)
  | [] =>
    match s.plan with
    | .repeats c rest => (c, s.setCalls rest)
    | .free n => (Config.freeCall n, s.setPlan (.free (n + 1)))

/-- What becomes of a call's answer: an error that leaves the block `s` as it was ends the run in a fault, or is
reported and the host goes on (R342, R343; log 10). -/
def react (s : State) (r : Result) : Result :=
  match r with
  | .fault e =>
    match s.onError with
    | .stop => .fault e
    | .goOn => .next (s.emit (.error e))
  | .next t => .next t
  | .refused q => .refused q

/-- The host's next move. -/
def nextCall (s : State) : Result := react s.takeCall.2 (call s.takeCall.1 s.takeCall.2)

/-! ### What a call gives back -/

/-- The numeric code of an error kind (R340). -/
def errorCode : Fault → Nat
  | .addressOutOfRange _ => 1
  | .stackOverflow => 2
  | .stackUnderflow => 3
  | .unknownOpcode _ => 4
  | .programTooLarge _ => 5

/-- The typed result of a call made in `s`: the error it returned, none for `Ok` (R146). -/
def reply (s : State) : Result → Option Fault
  | .fault e => some e
  | .refused _ => none
  | .next t =>
    match t.outputs.drop s.outputs.length with
    | .error e :: _ => some e
    | _ => none

/-- The state the host's next move in `s` leaves: after an error that ends the run the block is as it was, the call
made (R342). -/
def stateAfter (s : State) : Result → State
  | .next t => t
  | .fault _ => s.takeCall.2
  | .refused _ => s

/-! ### Placing an instruction -/

/-- The state with the word stored where the next step fetches, and everything the fetch needs: a loaded
block, running, `step()` the next call, PC where two bytes exist (log 18). -/
def placeFetchWord (s : State) (w : Word) : State :=
  let p : Word := if s.pc.toNat < maxAddress then s.pc else 0x200
  let ready := { s with pc := p, mode := .running, loaded := true, calls := .step :: s.calls }
  ready.writeBytes p.toNat [highByte w, lowByte w]

end Sys2Proof.Machine
end

