-- ==== Sys2Proof/Machine/Step.lean ====
section
/-! DEFINITION. One step of the machine: one call of the host into the block. -/

namespace Sys2Proof.Machine

/-- One step: the host's next call and what becomes of its answer. -/
def step (s : State) : Host.Outcome State Fault Refusal := nextCall s

/-- `s` with an instruction of the opcode table stored where `step` fetches its next instruction. -/
def State.withFetchWord (s : State) (nbits w : Nat) : State :=
  placeFetchWord s (BitVec.ofNat 16 (w % 2 ^ nbits))

end Sys2Proof.Machine
end

