-- ==== Sys2Proof/Safety.lean ====
section
/-! DEFINITION. What claims are stated in: the invariant of the block, frames, reachability, a safe run and the
end of a run. -/

namespace Sys2Proof.Machine

/-- The invariant every step keeps: the stack's depth (R36) and what it holds (R171), the bound of PC (R35),
and the canonical form of memory. -/
structure State.Inv (s : State) : Prop where
  depth : s.stack.length ≤ 16
  entries : ∀ a ∈ s.stack, a.toNat ≤ 0x1000
  pcBound : s.pc.toNat ≤ 0x10FE
  memory : Memory.wf (resetByte s.cfg) s.mem

/-- Every byte of memory reads in `t` as it reads in `s`. -/
def SameMemory (s t : State) : Prop := ∀ a, t.readByte a = s.readByte a

/-- `t` differs from `s` in V registers of `xs` alone. -/
def OnlyRegs (xs : List Reg) (s t : State) : Prop :=
  t = { s with v := t.v } ∧ (∀ r, r ∉ xs → t.getV r = s.getV r) ∧ SameMemory s t

/-- `t` differs from `s` in PC alone. -/
def OnlyPc (s t : State) : Prop := t = { s with pc := t.pc } ∧ SameMemory s t

/-- `t` differs from `s` in I alone. -/
def OnlyI (s t : State) : Prop := t = { s with i := t.i } ∧ SameMemory s t

/-- Every word that selects the row decodes to the instruction `f` makes of its fields (R108). -/
def RowDecodes (pattern mask : Word) (f : Word → Instr) : Prop :=
  ∀ w, w &&& mask = pattern → decode w = .instr (f w)

/-- The host's next call is `step()`, whether it is queued, repeated by the plan or free (R140). -/
def StepIsNext (s : State) : Prop := s.takeCall.1 = .step

/-- The next machine step is a `step()` in Running mode of a loaded block (R141, R394). -/
def Ready (s : State) : Prop := s.loaded = true ∧ s.mode = .running ∧ StepIsNext s

/-- The machine step's call returns `e` and leaves the block as it was, PC at the instruction (R342): the run ends in
the fault, or the error is reported and the host goes on (R343; log 10). -/
def ReturnsError (s : State) (e : Fault) : Prop :=
  reply s (step s) = some e ∧
  (s.onError = .stop → step s = .fault e ∧ stateAfter s (step s) = s.takeCall.2) ∧
  (s.onError = .goOn → ∃ t, step s = .next t ∧ t = { s.takeCall.2 with outputs := t.outputs })

/-- The step that would run `i` in `s` returns `e` and leaves the block as it was. -/
def StepStops (s : State) (i : Instr) (e : Fault) : Prop :=
  Ready s → s.pc.toNat ≤ 4094 → decode s.fetchWord = .instr i → ReturnsError s e

/-- Key `k` is down in `s` and, under the edge trigger, was up in the snapshot (R315). -/
def KeyQualifies (s : State) (k : Nat) : Prop :=
  k < 16 ∧ s.keys.getLsbD k = true ∧ (s.cfg.keyWaitTrigger = .edge → s.lastKeys.getLsbD k = false)

/-- A 1 bit of the sprite of `n` bytes at I, drawn at (Vx, Vy), lands on pixel `p` (R284). -/
def Hits (s : State) (x y : Reg) (n : Nibble) (p : Pixel) : Prop :=
  ∃ k < n.toNat, ∃ b < 8, (s.readByte (s.base + k)).getLsbD (7 - b) = true ∧
    p.1.val = ((s.getV x).toNat + b) % 64 ∧ p.2.val = ((s.getV y).toNat + k) % 32

/-- The V registers an instruction may write when it runs (R33). LD Vx,K writes none: its register is written by
the await step that completes it. -/
def regsWritten : Instr → List Reg
  | .ldImm x _ | .addImm x _ | .rnd x _ | .ldReg x _ | .orReg x _ | .andReg x _ | .xorReg x _ | .ldVxDT x => [x]
  | .addReg x _ | .sub x _ | .subn x _ | .shr x _ | .shl x _ => [VF, x]
  | .drw _ _ _ => [VF]
  | .loadRegs x => (List.finRange 16).filter (· ≤ x)
  | .cls | .ret | .jp _ | .call _ | .seImm _ _ | .sneImm _ _ | .seReg _ _ | .sneReg _ _ | .ldI _ | .jpV0 _
  | .skp _ | .sknp _ | .ldVxK _ | .ldDTVx _ | .ldSTVx _ | .addI _ | .ldF _ | .ldB _ | .storeRegs _ => []

/-- A result with `f` applied to its next state. -/
def mapNext (f : State → State) : Result → Result
  | .next t => .next (f t)
  | .fault e => .fault e
  | .refused r => .refused r

/-- `t` is reached from `s` by machine steps that each answer a next state. The host's calls are those queued
in `s`, then those of its plan; every interleaving is that of some queue and plan. -/
inductive Reaches : State → State → Prop
  | refl (s : State) : Reaches s s
  | next {s t u : State} : Reaches s t → step t = .next u → Reaches s u

/-- A run from `s` in which no `step()` returns an error that leaves the state as it was (R342, R343). -/
def SafeFrom (s : State) : Prop := ∀ t, Reaches s t → StepIsNext t → ∀ e, stepCall t.takeCall.2 ≠ .fault e

/-- The end of a run: the next instruction is a jump to its own address (R149). -/
def AtEnd (s : State) : Prop :=
  s.loaded = true ∧ s.mode = .running ∧ s.pc.toNat < maxAddress ∧
    ∃ nnn, decode s.fetchWord = .instr (.jp nnn) ∧ zextAddr nnn = s.pc

end Sys2Proof.Machine
end

