-- ==== Sys2Proof/Certificates/Slice0/Obligations.lean ====
section
/-! DEFINITION. The statements for the provers. Where a statement says that the state after is the state before
with some fields replaced, every other field is unchanged, memory's cells and the parameters among them. -/

open Sys2Proof Sys2Proof.Machine

/-! ### Decoding and encoding -/

/-- R108's rows on words written out from their patterns, one or more for every family, and four words of R109. -/
def Obligations.SpecWordsDecode : Prop :=
  decode 0x00E0 = .instr .cls ∧ decode 0x0FEE = .instr .ret ∧ decode 0x1ABC = .instr (.jp 0xABC) ∧
  decode 0x3310 = .instr (.seImm 3 0x10) ∧ decode 0x5121 = .instr (.seReg 1 2) ∧
  decode 0x8124 = .instr (.addReg 1 2) ∧ decode 0x8AB6 = .instr (.shr 0xA 0xB) ∧
  decode 0xC10F = .instr (.rnd 1 0x0F) ∧ decode 0xD12F = .instr (.drw 1 2 0xF) ∧
  decode 0xE19E = .instr (.skp 1) ∧ decode 0xF50A = .instr (.ldVxK 5) ∧ decode 0xF133 = .instr (.ldB 1) ∧
  decode 0xFF65 = .instr (.loadRegs 0xF) ∧ decode 0x0123 = .unknown 0x0123 ∧ decode 0x8008 = .unknown 0x8008 ∧
  decode 0xE09F = .unknown 0xE09F ∧ decode 0xF0FF = .unknown 0xF0FF

/-- R101: the field extraction, as the source's formulas. -/
def Obligations.FieldExtraction : Prop :=
  ∀ w : Word,
    (fieldClass w).toNat = (w.toNat >>> 12) &&& 0xF ∧ (fieldX w).val = (w.toNat >>> 8) &&& 0xF ∧
    (fieldY w).val = (w.toNat >>> 4) &&& 0xF ∧ (fieldKK w).toNat = w.toNat &&& 0xFF ∧
    (fieldNNN w).toNat = w.toNat &&& 0xFFF ∧ (fieldN w).toNat = w.toNat &&& 0xF

/-- Decoding an encoded instruction gives it back, every operand at every value. -/
def Obligations.DecodeOfEncode : Prop := ∀ i : Instr, decode (encode i) = .instr i

/-- R108: a word decodes to an instruction exactly where it selects that instruction's row (`rowOf` is the
table), a word that decodes to none selects no row, and no word selects two rows. -/
def Obligations.DecodeFollowsOpcodeMap : Prop :=
  (∀ w i, decode w = .instr i → w &&& (rowOf i).mask = (rowOf i).pattern) ∧
  (∀ w u, decode w = .unknown u → u = w ∧ ∀ i, w &&& (rowOf i).mask ≠ (rowOf i).pattern) ∧
  (∀ w i j, w &&& (rowOf i).mask = (rowOf i).pattern → w &&& (rowOf j).mask = (rowOf j).pattern → rowOf i = rowOf j)

/-- R109: the unknown words are exactly the ones listed, class by class. -/
def Obligations.UnknownWordsAreThoseListed : Prop :=
  ∀ w : Word, decode w = .unknown w ↔
    (w.toNat / 4096 = 0x0 ∧ w.toNat % 256 ∉ [0xE0, 0xEE]) ∨
    (w.toNat / 4096 = 0x8 ∧ w.toNat % 16 ∈ [0x8, 0x9, 0xA, 0xB, 0xC, 0xD, 0xF]) ∨
    (w.toNat / 4096 = 0xE ∧ w.toNat % 256 ∉ [0x9E, 0xA1]) ∨
    (w.toNat / 4096 = 0xF ∧ w.toNat % 256 ∉ [0x07, 0x0A, 0x15, 0x18, 0x1E, 0x29, 0x33, 0x55, 0x65])

/-- R107: the ignored bits of a word change nothing of what it decodes to, every other bit is kept in the
decoded instruction, and the y of SHR and SHL, kept, is not used. -/
def Obligations.IgnoredBitsExactly : Prop :=
  (∀ w i, decode w = .instr i → w &&& ~~~(ignoredBits i) = encode i &&& ~~~(ignoredBits i)) ∧
  (∀ i (m : Word), decode (encode i ||| (m &&& ignoredBits i)) = .instr i) ∧
  (∀ x y z s, exec (.shr x y) s = exec (.shr x z) s ∧ exec (.shl x y) s = exec (.shl x z) s)

/-! ### The step -/

/-- A machine step in Running mode runs the decoded instruction at PC + 2, the call made: its next state is the
step's, and its error is returned (R342, R343; log 10). -/
def Obligations.StepRunsDecodedInstruction : Prop :=
  ∀ s i, Ready s → s.pc.toNat ≤ 4094 →
    decode (wordOfBytes (s.readByte s.pc.toNat) (s.readByte (s.pc.toNat + 1))) = .instr i →
    (s.onError = .stop → step s = exec i (s.takeCall.2.setPc (s.pc + 2))) ∧
    (∀ t, exec i (s.takeCall.2.setPc (s.pc + 2)) = .next t → step s = .next t) ∧
    (∀ e, exec i (s.takeCall.2.setPc (s.pc + 2)) = .fault e → ReturnsError s e)

/-- The host's calls come in the order of the queue; after them the plan's, the same ones again and again or free
ones (R140; the form of the queue and the plan is the model's, log 9). -/
def Obligations.HostCallsInOrder : Prop :=
  (∀ (s : State) c rest, s.calls = c :: rest → s.takeCall = (c, { s with calls := rest })) ∧
  (∀ (s : State) c more, s.calls = [] → s.plan = .repeats c more → s.takeCall = (c, { s with calls := more })) ∧
  (∀ (s : State) n, s.calls = [] → s.plan = .free n → s.takeCall = (Config.freeCall n, { s with plan := .free (n + 1) }))

/-- R140, R361: with a host that goes on after errors, every finite sequence of calls on a loaded block is a run, and
so is every infinite one: `Config.freeCall` has no value that a proof can see. -/
def Obligations.EveryCallSequenceRuns : Prop :=
  ∀ s : State, s.loaded = true → s.onError = .goOn →
    (∃ run : Nat → State, run 0 = s ∧ ∀ n, ∀ h : n < s.calls.length,
      (run n).takeCall.1 = s.calls[n] ∧ step (run n) = .next (run (n + 1))) ∧
    (∀ m, s.calls = [] → s.plan = .free m → ∃ run : Nat → State, run 0 = s ∧ ∀ n,
      (run n).takeCall.1 = Config.freeCall (m + n) ∧ step (run n) = .next (run (n + 1)))

/-- R141: the range check of the fetch with its error, the big-endian word, the advance of PC by 2. -/
def Obligations.FetchChecksAndAdvances : Prop :=
  ∀ s, Ready s →
    (4095 < s.pc.toNat → ReturnsError s (.addressOutOfRange s.pc.toNat)) ∧
    (s.pc.toNat = 4095 → ReturnsError s (.addressOutOfRange 4096)) ∧
    (s.pc.toNat < 4095 → ∃ w : Word,
      w.toNat = (s.readByte s.pc.toNat).toNat * 256 + (s.readByte (s.pc.toNat + 1)).toNat ∧
      ∀ i, decode w = .instr i → ∃ t, t = { s.takeCall.2 with pc := t.pc } ∧ t.pc.toNat = (s.pc.toNat + 2) % 65536 ∧
        (s.onError = .stop → step s = exec i t) ∧ ∀ u, exec i t = .next u → step s = .next u)

/-- R144: an unknown word is reported (`reply`); under `Halt` nothing changes, under `Skip` PC alone moves, past
the word, and the trace of outputs, where the model carries the report (log 11). -/
def Obligations.UnknownOpcodeFollowsPolicy : Prop :=
  ∀ s w, Ready s → s.pc.toNat ≤ 4094 → decode s.fetchWord = .unknown w →
    w = s.fetchWord ∧ reply s (step s) = some (.unknownOpcode w) ∧
    (s.cfg.unknownOpcodePolicy = .halt → ReturnsError s (.unknownOpcode w)) ∧
    (s.cfg.unknownOpcodePolicy = .skip → ∃ t, step s = .next t ∧ t.pc.toNat = (s.pc.toNat + 2) % 65536 ∧
      t = { s.takeCall.2 with pc := t.pc, outputs := t.outputs } ∧ SameMemory s t)

/-- R145 with R315: an await step without a qualifying key changes nothing but the snapshot of the edge trigger;
with one it stores some qualifying key's code and returns to Running; every qualifying key may be the one, by the
parameter pickKey. -/
def Obligations.AwaitStep : Prop :=
  ∀ s r, s.loaded = true → StepIsNext s → s.mode = .awaitingKey r →
    ((∀ k, ¬ KeyQualifies s k) → s.cfg.keyWaitTrigger = .level → step s = .next s.takeCall.2) ∧
    ((∀ k, ¬ KeyQualifies s k) → s.cfg.keyWaitTrigger = .edge →
      step s = .next { s.takeCall.2 with lastKeys := s.keys }) ∧
    ((∃ k, KeyQualifies s k) → ∃ k t, KeyQualifies s k ∧ step s = .next t ∧ t.getV r = BitVec.ofNat 8 k ∧
      (∀ q, q ≠ r → t.getV q = s.getV q) ∧ t = { s.takeCall.2 with v := t.v, mode := .running } ∧ SameMemory s t) ∧
    (∀ k, KeyQualifies s k → ∃ table t, step { s with cfg := { s.cfg with pickKey := table } } = .next t ∧
      t.getV r = BitVec.ofNat 8 k)

/-- R47, R145: pickKey is a parameter: under the same parameters the same qualifying keys give the same key, whatever
else the states hold, and a claim can fix it by the parameter's table (the table is the model's form of it, log 8). -/
def Obligations.PickKeyIsAParameter : Prop :=
  ∀ s r s', s.loaded = true → StepIsNext s → s.mode = .awaitingKey r → (∃ k, KeyQualifies s k) → step s = .next s' →
    (∀ u q u', u.loaded = true → StepIsNext u → u.mode = .awaitingKey q → u.cfg = s.cfg →
      (∀ k, KeyQualifies u k ↔ KeyQualifies s k) → step u = .next u' → u'.getV q = s'.getV r) ∧
    (∀ k : Reg, s.cfg.pickKey.lookup s.qualifyingKeys = some k → KeyQualifies s k.val →
      s'.getV r = BitVec.ofNat 8 k.val)

/-- R394: a `step()` before any successful load is refused, and a successful load ends that. -/
def Obligations.StepBeforeLoadRefused : Prop :=
  (∀ s : State, s.loaded = false → StepIsNext s → step s = .refused .stepBeforeLoad) ∧
  (∀ s rest, s.loaded = false → s.calls = .step :: rest → step s = .refused .stepBeforeLoad) ∧
  (∀ c, (State.constructed c).loaded = false) ∧
  (∀ image s t, load image s = .ok t → t.loaded = true)

/-- R360: a tick lowers each timer above 0 by one, leaves a timer at 0, and touches nothing else, in either mode. -/
def Obligations.TickCountsDown : Prop :=
  ∀ s : State, s.takeCall.1 = .tick → ∃ t, step s = .next t ∧
    (0 < s.dt.toNat → t.dt.toNat = s.dt.toNat - 1) ∧ (s.dt = 0 → t.dt = 0) ∧
    (0 < s.st.toNat → t.st.toNat = s.st.toNat - 1) ∧ (s.st = 0 → t.st = 0) ∧
    t = { s.takeCall.2 with dt := t.dt, st := t.st } ∧ SameMemory s t

/-- R39, R396: after any number of ticks a timer holds its value less that number, floored at 0. -/
def Obligations.TicksFloorAtZero : Prop :=
  ∀ n s, (tick^[n] s).dt.toNat = s.dt.toNat - n ∧ (tick^[n] s).st.toNat = s.st.toNat - n ∧
    tick^[n] s = { s with dt := (tick^[n] s).dt, st := (tick^[n] s).st }

/-- R392, R393: a load that fits resets the block; one that does not changes nothing and returns its length
(`reply`), which the model carries in the trace of outputs (log 11). -/
def Obligations.LoadResetsTheBlock : Prop :=
  ∀ (s : State) image, s.takeCall.1 = .load image →
    (image.length ≤ 3584 → ∃ t, step s = .next t ∧
      (∀ a, a ≤ 4095 → ∀ h : 0x200 ≤ a ∧ a < 0x200 + image.length, t.readByte a = image[a - 0x200]'(by omega)) ∧
      (∀ a, ∀ h : a < 80, t.readByte a = s.cfg.font[a]) ∧
      (∀ a, 80 ≤ a → a < 0x200 ∨ 0x200 + image.length ≤ a → t.readByte a = (s.cfg.resetMem.lookup a).getD 0) ∧
      t = { s.takeCall.2 with
            mem := t.mem, v := s.cfg.resetV, i := s.cfg.resetI, dt := s.cfg.resetDT,
            st := s.cfg.resetST, stack := [], display := s.cfg.resetDisplay, mode := .running, pc := 0x200,
            lastKeys := t.lastKeys, rng := t.rng, choices := t.choices, outputs := t.outputs, loaded := true }) ∧
    (3584 < image.length → load image s = .error (.programTooLarge image.length) ∧
      reply s (step s) = some (.programTooLarge image.length) ∧
      ∃ t, step s = .next t ∧ t = { s.takeCall.2 with outputs := t.outputs } ∧ SameMemory s t)

/-- A load leaves the key snapshot, the supplies and the trace of outputs as they were, of which R393 says nothing
(the model's inference, log 14). -/
def Obligations.LoadKeepsTheRest : Prop :=
  ∀ image s t, load image s = .ok t →
    t.lastKeys = s.lastKeys ∧ t.rng = s.rng ∧ t.choices = s.choices ∧ t.outputs = s.outputs

/-- R48: the state after construction and a successful load, for every value of the open parameters. -/
def Obligations.ResetState : Prop :=
  ∀ c image, image.length ≤ 3584 → ∃ t, load image (State.constructed c) = .ok t ∧ t.pc = 0x200 ∧
    (∀ a, ∀ h : a < 80, t.readByte a = c.font[a]) ∧
    (∀ k, ∀ h : k < image.length, t.readByte (0x200 + k) = image[k]) ∧
    (∀ a, 80 ≤ a → a < 0x200 ∨ 0x200 + image.length ≤ a → t.readByte a = (c.resetMem.lookup a).getD 0) ∧
    t.v = c.resetV ∧ t.i = c.resetI ∧ t.dt = c.resetDT ∧ t.st = c.resetST ∧ t.stack = [] ∧
    t.display = c.resetDisplay ∧ t.mode = .running

/-- State.reset is the state after construction under the standard parameters and a load of the empty image, with
every field the spec leaves open at the value the log names: the model's choice (log 1 to 10, log 12, log 15). -/
def Obligations.ResetIsLoadOfEmptyImage : Prop :=
  (∀ c, load [] (State.constructed c) = .ok (State.resetUnder c)) ∧
  State.reset = State.resetUnder Config.standard ∧ State.reset.keys = 0 ∧ State.reset.lastKeys = 0 ∧
  State.reset.calls = [] ∧ State.reset.plan = .repeats .step [] ∧ State.reset.onError = .stop ∧
  State.reset.outputs = []

/-- R42, R365: the host sets the key map between calls and touches nothing else; no call of the block writes it. -/
def Obligations.KeyMapBelongsToTheHost : Prop :=
  (∀ (s : State) k, s.takeCall.1 = .setKeys k → step s = .next { s.takeCall.2 with keys := k }) ∧
  (∀ s t, step s = .next t → (∀ k, s.takeCall.1 ≠ .setKeys k) → t.keys = s.keys)

/-! ### Invariants and rules of the whole machine -/

/-- From every state that meets the invariant, a machine step gives a state that meets it: at most 16 return
addresses, each at most 0x1000 (R36, R171), PC at most 0x10FE (R35), memory in its canonical form. -/
def Obligations.StepKeepsInvariant : Prop := ∀ s t : State, s.Inv → step s = .next t → t.Inv

/-- The invariant holds after reset, under every choice of the parameters. -/
def Obligations.ResetMeetsInvariant : Prop := State.reset.Inv ∧ ∀ c, (State.resetUnder c).Inv

/-- R47: no step changes a parameter. -/
def Obligations.ParametersNeverChange : Prop := ∀ s t : State, step s = .next t → t.cfg = s.cfg

/-- R341, R344: an instruction runs, or stops at the one error kind it has. -/
def Obligations.OneErrorKindPerInstruction : Prop :=
  ∀ i s, (∃ t, exec i s = .next t) ∨
    match i with
    | .ret => exec i s = .fault .stackUnderflow
    | .call _ => exec i s = .fault .stackOverflow
    | .drw _ _ _ | .ldB _ | .storeRegs _ | .loadRegs _ => ∃ a, 4095 < a ∧ exec i s = .fault (.addressOutOfRange a)
    | _ => False

/-- R342, R343: a `step()` that answers an error returns it and leaves the block as it was; no keys and no timers
change the answer, and no later call but a load does. -/
def Obligations.SameErrorAgain : Prop :=
  ∀ s e, stepCall s = .fault e →
    (StepIsNext s → ReturnsError s e) ∧
    (∀ keys dt st, stepCall { s with keys := keys, dt := dt, st := st } = .fault e) ∧
    (∀ t, step s = .next t → (∀ image, s.takeCall.1 ≠ .load image) → stepCall t = .fault e)

/-- R361: where the host goes on after an error, a tick behind the failing `step()` runs as any other. -/
def Obligations.TickRunsAfterAnyError : Prop :=
  ∀ (s : State) e rest, s.onError = .goOn → s.calls = .step :: .tick :: rest → stepCall s = .fault e →
    ∃ t u, step s = .next t ∧ step t = .next u ∧
      (0 < s.dt.toNat → u.dt.toNat = s.dt.toNat - 1) ∧ (s.dt = 0 → u.dt = 0) ∧
      (0 < s.st.toNat → u.st.toNat = s.st.toNat - 1) ∧ (s.st = 0 → u.st = 0) ∧
      u = { s with calls := rest, dt := u.dt, st := u.st, outputs := u.outputs } ∧ SameMemory s u

/-- R33, R31: an instruction that runs writes no V register outside its entry of the table. -/
def Obligations.RegisterWriters : Prop :=
  ∀ i s t, exec i s = .next t → ∀ r, r ∉ regsWritten i → t.getV r = s.getV r

/-- R34, R36, R41, R44, R71, R148, R179, R352, R363, R366: each other piece of state is written by the
instructions the spec names, and by no other. -/
def Obligations.WritersOfOtherState : Prop :=
  ∀ i s t, exec i s = .next t →
    (match i with
      | .ldI _ | .addI _ | .ldF _ | .storeRegs _ | .loadRegs _ => True
      | _ => t.i = s.i) ∧
    (match i with
      | .ret | .jp _ | .call _ | .seImm _ _ | .sneImm _ _ | .seReg _ _ | .sneReg _ _ | .jpV0 _ | .skp _
      | .sknp _ => True
      | _ => t.pc = s.pc) ∧
    (match i with | .ret | .call _ => True | _ => t.stack = s.stack) ∧
    (match i with | .ldDTVx _ => True | _ => t.dt = s.dt) ∧
    (match i with | .ldSTVx _ => True | _ => t.st = s.st) ∧
    (match i with | .cls | .drw _ _ _ => True | _ => t.display = s.display) ∧
    (match i with | .ldVxK _ => True | _ => t.mode = s.mode ∧ t.lastKeys = s.lastKeys) ∧
    (match i with | .ldB _ | .storeRegs _ => True | _ => t.mem = s.mem ∧ SameMemory s t) ∧
    (match i with | .rnd _ _ => t.rng.taken = s.rng.taken + 1 | _ => t.rng = s.rng) ∧
    (match i with
      | .cls => t.outputs = s.outputs ++ [.clear]
      | .drw _ _ _ => t.outputs = s.outputs ++ [.present]
      | _ => t.outputs = s.outputs) ∧
    (match i with | .skp _ | .sknp _ => True | _ => t.choices = s.choices) ∧
    t.keys = s.keys ∧ t.loaded = s.loaded ∧ t.cfg = s.cfg ∧ t.calls = s.calls ∧ t.plan = s.plan ∧
    t.onError = s.onError

/-- R352, R355: AwaitingKey is entered only by LD Vx,K, and left only by an await step that stores a pressed key
or by a load. -/
def Obligations.AwaitEnteredAndLeft : Prop :=
  ∀ s t, step s = .next t →
    (∀ r, s.mode = .running → t.mode = .awaitingKey r → decode s.fetchWord = .instr (.ldVxK r)) ∧
    (∀ r q, s.mode = .awaitingKey r → t.mode = .awaitingKey q → q = r) ∧
    (∀ r, s.mode = .awaitingKey r → t.mode = .running →
      (∃ k, KeyQualifies s k ∧ t.getV r = BitVec.ofNat 8 k ∧ t.pc = s.pc) ∨
        ∃ image, s.takeCall.1 = .load image)

/-- R148: an instruction other than the three timer instructions neither reads nor writes DT and ST. -/
def Obligations.TimersAreOutOfReach : Prop :=
  ∀ i s d e, (∀ x, i ≠ .ldVxDT x ∧ i ≠ .ldDTVx x ∧ i ≠ .ldSTVx x) →
    exec i ((s.setDT d).setST e) = mapNext (fun t => (t.setDT d).setST e) (exec i s)

/-- R361: a tick before a `step()` or after it comes to the same, unless the step runs a timer instruction; in
AwaitingKey always. -/
def Obligations.TickCommutesWithStep : Prop :=
  ∀ s, (s.mode = .running → ∀ x, decode s.fetchWord ≠ .instr (.ldVxDT x) ∧
      decode s.fetchWord ≠ .instr (.ldDTVx x) ∧ decode s.fetchWord ≠ .instr (.ldSTVx x)) →
    stepCall (tick s) = mapNext tick (stepCall s)

/-- R149: at the end of a run every further step leaves the state as it is, the call made. -/
def Obligations.SelfJumpKeepsState : Prop := ∀ s, AtEnd s → StepIsNext s → step s = .next s.takeCall.2

/-- The word placed by `withFetchWord` is the one the next step runs, from every state (the model's own
operation, log 18). -/
def Obligations.PlacedWordRuns : Prop :=
  ∀ (s : State) i, ∃ u,
    (s.onError = .stop → step (s.withFetchWord 16 (encode i).toNat) = exec i u) ∧
    (∀ t, exec i u = .next t → step (s.withFetchWord 16 (encode i).toNat) = .next t) ∧
    u.v = s.v ∧ u.i = s.i ∧ u.stack = s.stack ∧ u.calls = s.calls ∧
    (s.pc.toNat < 4095 → u.pc = s.pc + 2) ∧
    (s.pc.toNat < 4095 → ∀ a, a ≠ s.pc.toNat → a ≠ s.pc.toNat + 1 → u.readByte a = s.readByte a)

/-! ### Control flow -/

/-- R172, R178: JP and JP V0. -/
def Obligations.Jumps : Prop :=
  (RowDecodes 0x1000 0xF000 (fun w => .jp (fieldNNN w)) ∧ RowDecodes 0xB000 0xF000 (fun w => .jpV0 (fieldNNN w))) ∧
  (∀ nnn s, ∃ t, exec (.jp nnn) s = .next t ∧ t.pc.toNat = nnn.toNat ∧ OnlyPc s t) ∧
  (∀ nnn s, ∃ t, exec (.jpV0 nnn) s = .next t ∧ t.pc.toNat = nnn.toNat + (s.getV 0).toNat ∧ OnlyPc s t)

/-- R173, R37: CALL pushes the address after it and jumps; with 16 entries it stops at StackOverflow. -/
def Obligations.CallPushesReturnAddress : Prop :=
  RowDecodes 0x2000 0xF000 (fun w => .call (fieldNNN w)) ∧
  ∀ nnn s,
    (s.stack.length < 16 → ∃ t, exec (.call nnn) s = .next t ∧ t.stack = s.stack ++ [s.pc] ∧
      t.pc.toNat = nnn.toNat ∧ t = { s with pc := t.pc, stack := t.stack } ∧ SameMemory s t) ∧
    (s.stack.length = 16 →
      exec (.call nnn) s = .fault .stackOverflow ∧ StepStops s (.call nnn) .stackOverflow)

/-- R171, R38: RET pops the latest return address into PC; with an empty stack it stops at StackUnderflow. -/
def Obligations.RetPopsReturnAddress : Prop :=
  RowDecodes 0x00EE 0xF0FF (fun _ => .ret) ∧
  ∀ s,
    (∀ l a, s.stack = l ++ [a] →
      ∃ t, exec .ret s = .next t ∧ t = { s with pc := a, stack := l } ∧ SameMemory s t) ∧
    (s.stack = [] → exec .ret s = .fault .stackUnderflow ∧ StepStops s .ret .stackUnderflow)

/-- R36 to R38: a RET after a CALL, wherever the subroutine has moved PC, gives back the whole state of the caller. -/
def Obligations.CallThenRetRestores : Prop :=
  ∀ nnn s t p, exec (.call nnn) s = .next t → exec .ret (t.setPc p) = .next s

/-- R174, R175, R176, R177: the four skips on registers and bytes. -/
def Obligations.RegisterSkips : Prop :=
  (RowDecodes 0x3000 0xF000 (fun w => .seImm (fieldX w) (fieldKK w)) ∧
    RowDecodes 0x4000 0xF000 (fun w => .sneImm (fieldX w) (fieldKK w)) ∧
    RowDecodes 0x5000 0xF000 (fun w => .seReg (fieldX w) (fieldY w)) ∧
    RowDecodes 0x9000 0xF000 (fun w => .sneReg (fieldX w) (fieldY w))) ∧
  (∀ x kk s, ∃ t, exec (.seImm x kk) s = .next t ∧ OnlyPc s t ∧
    (s.getV x = kk → t.pc.toNat = (s.pc.toNat + 2) % 65536) ∧ (s.getV x ≠ kk → t.pc = s.pc)) ∧
  (∀ x kk s, ∃ t, exec (.sneImm x kk) s = .next t ∧ OnlyPc s t ∧
    (s.getV x ≠ kk → t.pc.toNat = (s.pc.toNat + 2) % 65536) ∧ (s.getV x = kk → t.pc = s.pc)) ∧
  (∀ x y s, ∃ t, exec (.seReg x y) s = .next t ∧ OnlyPc s t ∧
    (s.getV x = s.getV y → t.pc.toNat = (s.pc.toNat + 2) % 65536) ∧ (s.getV x ≠ s.getV y → t.pc = s.pc)) ∧
  (∀ x y s, ∃ t, exec (.sneReg x y) s = .next t ∧ OnlyPc s t ∧
    (s.getV x ≠ s.getV y → t.pc.toNat = (s.pc.toNat + 2) % 65536) ∧ (s.getV x = s.getV y → t.pc = s.pc))

/-! ### Arithmetic and logic -/

/-- R201 to R206: the loads, the add without a flag and the bitwise operations write Vx alone. -/
def Obligations.RegisterTransfers : Prop :=
  (RowDecodes 0x6000 0xF000 (fun w => .ldImm (fieldX w) (fieldKK w)) ∧
    RowDecodes 0x7000 0xF000 (fun w => .addImm (fieldX w) (fieldKK w)) ∧
    RowDecodes 0x8000 0xF00F (fun w => .ldReg (fieldX w) (fieldY w)) ∧
    RowDecodes 0x8001 0xF00F (fun w => .orReg (fieldX w) (fieldY w)) ∧
    RowDecodes 0x8002 0xF00F (fun w => .andReg (fieldX w) (fieldY w)) ∧
    RowDecodes 0x8003 0xF00F (fun w => .xorReg (fieldX w) (fieldY w))) ∧
  (∀ x kk s, ∃ t, exec (.ldImm x kk) s = .next t ∧ t.getV x = kk ∧ OnlyRegs [x] s t) ∧
  (∀ x kk s, ∃ t, exec (.addImm x kk) s = .next t ∧
    (t.getV x).toNat = ((s.getV x).toNat + kk.toNat) % 256 ∧ OnlyRegs [x] s t) ∧
  (∀ x y s, ∃ t, exec (.ldReg x y) s = .next t ∧ t.getV x = s.getV y ∧ OnlyRegs [x] s t) ∧
  (∀ x y s, ∃ t, exec (.orReg x y) s = .next t ∧ t.getV x = s.getV x ||| s.getV y ∧ OnlyRegs [x] s t) ∧
  (∀ x y s, ∃ t, exec (.andReg x y) s = .next t ∧ t.getV x = s.getV x &&& s.getV y ∧ OnlyRegs [x] s t) ∧
  (∀ x y s, ∃ t, exec (.xorReg x y) s = .next t ∧ t.getV x = s.getV x ^^^ s.getV y ∧ OnlyRegs [x] s t)

/-- R207: ADD Vx,Vy with its carry; with x = 0xF the sum stands in VF. -/
def Obligations.AddWithCarry : Prop :=
  RowDecodes 0x8004 0xF00F (fun w => .addReg (fieldX w) (fieldY w)) ∧
  ∀ x y s, ∃ t, exec (.addReg x y) s = .next t ∧
    (t.getV x).toNat = ((s.getV x).toNat + (s.getV y).toNat) % 256 ∧
    (x ≠ 0xF → t.getV 0xF = if (s.getV x).toNat + (s.getV y).toNat > 255 then 1 else 0) ∧
    OnlyRegs [x, 0xF] s t

/-- R208, R209: SUB and SUBN wrap, and flag strictly greater. -/
def Obligations.SubtractBothOrders : Prop :=
  (RowDecodes 0x8005 0xF00F (fun w => .sub (fieldX w) (fieldY w)) ∧
    RowDecodes 0x8007 0xF00F (fun w => .subn (fieldX w) (fieldY w))) ∧
  (∀ x y s, ∃ t, exec (.sub x y) s = .next t ∧
    (t.getV x).toNat = ((s.getV x).toNat + 256 - (s.getV y).toNat) % 256 ∧
    (x ≠ 0xF → t.getV 0xF = if (s.getV x).toNat > (s.getV y).toNat then 1 else 0) ∧
    OnlyRegs [x, 0xF] s t) ∧
  (∀ x y s, ∃ t, exec (.subn x y) s = .next t ∧
    (t.getV x).toNat = ((s.getV y).toNat + 256 - (s.getV x).toNat) % 256 ∧
    (x ≠ 0xF → t.getV 0xF = if (s.getV y).toNat > (s.getV x).toNat then 1 else 0) ∧
    OnlyRegs [x, 0xF] s t)

/-- R210, R211: the shifts of Vx by one, the bit shifted out into VF as 0 or 1; Vy is not read. -/
def Obligations.ShiftsByOne : Prop :=
  (RowDecodes 0x8006 0xF00F (fun w => .shr (fieldX w) (fieldY w)) ∧
    RowDecodes 0x800E 0xF00F (fun w => .shl (fieldX w) (fieldY w))) ∧
  (∀ x y s, ∃ t, exec (.shr x y) s = .next t ∧ (t.getV x).toNat = (s.getV x).toNat / 2 ∧
    (x ≠ 0xF → (t.getV 0xF).toNat = (s.getV x).toNat % 2) ∧ OnlyRegs [x, 0xF] s t) ∧
  (∀ x y s, ∃ t, exec (.shl x y) s = .next t ∧ (t.getV x).toNat = (s.getV x).toNat * 2 % 256 ∧
    (x ≠ 0xF → (t.getV 0xF).toNat = (s.getV x).toNat / 128) ∧ OnlyRegs [x, 0xF] s t)

/-- R212: RND takes one draw and masks it; the draw is the next byte of the generator, whatever it is, and every
byte may be drawn. -/
def Obligations.RandomMasked : Prop :=
  RowDecodes 0xC000 0xF000 (fun w => .rnd (fieldX w) (fieldKK w)) ∧
  (∀ x kk s, ∃ t r, exec (.rnd x kk) s = .next t ∧ t.getV x = r &&& kk ∧
    (∀ b bs, s.rng.queue = b :: bs → r = b ∧ t.rng.queue = bs) ∧ t.rng.taken = s.rng.taken + 1 ∧
    (∀ q, q ≠ x → t.getV q = s.getV q) ∧ t = { s with v := t.v, rng := t.rng } ∧ SameMemory s t) ∧
  (∀ x kk (s : State) b, ∃ q t, exec (.rnd x kk) { s with rng := q } = .next t ∧ t.getV x = b &&& kk)

/-! ### Index and memory -/

/-- R251, R252, R253: LD I, ADD I and LD F write I alone, with no flag and no range check. -/
def Obligations.IndexOperations : Prop :=
  (RowDecodes 0xA000 0xF000 (fun w => .ldI (fieldNNN w)) ∧ RowDecodes 0xF01E 0xF0FF (fun w => .addI (fieldX w)) ∧
    RowDecodes 0xF029 0xF0FF (fun w => .ldF (fieldX w))) ∧
  (∀ nnn s, ∃ t, exec (.ldI nnn) s = .next t ∧ t.i.toNat = nnn.toNat ∧ OnlyI s t) ∧
  (∀ x s, ∃ t, exec (.addI x) s = .next t ∧ t.i.toNat = (s.i.toNat + (s.getV x).toNat) % 65536 ∧ OnlyI s t) ∧
  (∀ x s, ∃ t, exec (.ldF x) s = .next t ∧ t.i.toNat = (s.getV x).toNat * 5 ∧ OnlyI s t)

/-- R254: LD B stores the three decimal digits at I and leaves I; outside memory it stores nothing. -/
def Obligations.BcdStore : Prop :=
  RowDecodes 0xF033 0xF0FF (fun w => .ldB (fieldX w)) ∧
  ∀ x s,
    (s.base + 2 ≤ 4095 → ∃ t, exec (.ldB x) s = .next t ∧
      (t.readByte s.base).toNat = (s.getV x).toNat / 100 ∧
      (t.readByte (s.base + 1)).toNat = (s.getV x).toNat / 10 % 10 ∧
      (t.readByte (s.base + 2)).toNat = (s.getV x).toNat % 10 ∧
      (∀ a, a < s.base ∨ s.base + 3 ≤ a → t.readByte a = s.readByte a) ∧ t = { s with mem := t.mem }) ∧
    (4095 < s.base + 2 → exec (.ldB x) s = .fault (.addressOutOfRange (max s.base 4096)) ∧
      StepStops s (.ldB x) (.addressOutOfRange (max s.base 4096)))

/-- R255: LD [I],Vx stores V0 to Vx from I on and moves I past them; outside memory it stores nothing. -/
def Obligations.StoreRegisters : Prop :=
  RowDecodes 0xF055 0xF0FF (fun w => .storeRegs (fieldX w)) ∧
  ∀ x s,
    (s.base + x.val ≤ 4095 → ∃ t, exec (.storeRegs x) s = .next t ∧
      (∀ k : Reg, k ≤ x → t.readByte (s.base + k.val) = s.getV k) ∧
      (∀ a, a < s.base ∨ s.base + x.val + 1 ≤ a → t.readByte a = s.readByte a) ∧
      t.i.toNat = (s.base + x.val + 1) % 65536 ∧ t = { s with mem := t.mem, i := t.i }) ∧
    (4095 < s.base + x.val → exec (.storeRegs x) s = .fault (.addressOutOfRange (max s.base 4096)) ∧
      StepStops s (.storeRegs x) (.addressOutOfRange (max s.base 4096)))

/-- R256: LD Vx,[I] loads V0 to Vx from I on and moves I past them; outside memory it loads nothing. -/
def Obligations.LoadRegisters : Prop :=
  RowDecodes 0xF065 0xF0FF (fun w => .loadRegs (fieldX w)) ∧
  ∀ x s,
    (s.base + x.val ≤ 4095 → ∃ t, exec (.loadRegs x) s = .next t ∧
      (∀ k : Reg, k ≤ x → t.getV k = s.readByte (s.base + k.val)) ∧
      (∀ k : Reg, x < k → t.getV k = s.getV k) ∧
      t.i.toNat = (s.base + x.val + 1) % 65536 ∧ t = { s with v := t.v, i := t.i } ∧ SameMemory s t) ∧
    (4095 < s.base + x.val → exec (.loadRegs x) s = .fault (.addressOutOfRange (max s.base 4096)) ∧
      StepStops s (.loadRegs x) (.addressOutOfRange (max s.base 4096)))

/-- R80, R73: a word stored by LD [I],Vx is the word a later fetch at its address reads, high byte first. -/
def Obligations.FetchSeesStores : Prop :=
  ∀ x s t (k : Nat) (h : k + 1 ≤ x.val), exec (.storeRegs x) s = .next t →
    ∀ u : State, u.mem = t.mem → u.cfg = t.cfg → u.pc.toNat = s.base + k →
      u.fetchWord = wordOfBytes (s.getV ⟨k, by omega⟩) (s.getV ⟨k + 1, by omega⟩)

/-! ### Display -/

/-- R282: CLS clears every pixel and emits one Clear. -/
def Obligations.ClearScreen : Prop :=
  RowDecodes 0x00E0 0xF0FF (fun _ => .cls) ∧
  ∀ s, ∃ t, exec .cls s = .next t ∧ (∀ p, pixelAt t.display p = false) ∧
    t = { s with display := t.display, outputs := s.outputs ++ [.clear] } ∧ SameMemory s t

/-- R283, R284, R285: DRW toggles exactly the pixels a 1 bit of the sprite lands on, with wrap on both axes,
flags a collision in VF, and emits one Present; where a byte of the sprite lies outside memory it stops at the
lowest such address. -/
def Obligations.DrawSprite : Prop :=
  RowDecodes 0xD000 0xF000 (fun w => .drw (fieldX w) (fieldY w) (fieldN w)) ∧
  ∀ x y n s,
    ((∀ k < n.toNat, s.base + k ≤ 4095) → ∃ t, exec (.drw x y n) s = .next t ∧
      (∀ p, Hits s x y n p → pixelAt t.display p = !pixelAt s.display p) ∧
      (∀ p, ¬ Hits s x y n p → pixelAt t.display p = pixelAt s.display p) ∧
      ((∃ p, Hits s x y n p ∧ pixelAt s.display p = true) → t.getV 0xF = 1) ∧
      ((∀ p, Hits s x y n p → pixelAt s.display p = false) → t.getV 0xF = 0) ∧
      (∀ r, r ≠ 0xF → t.getV r = s.getV r) ∧
      t = { s with v := t.v, display := t.display, outputs := s.outputs ++ [.present] } ∧ SameMemory s t) ∧
    (∀ k < n.toNat, 4095 < s.base + k → (∀ j < k, s.base + j ≤ 4095) →
      exec (.drw x y n) s = .fault (.addressOutOfRange (s.base + k)) ∧
        StepStops s (.drw x y n) (.addressOutOfRange (s.base + k)))

/-- R286: drawing the same sprite again at the same place restores the display; from a clear display the second
draw reports a collision exactly where the sprite has a 1 bit. -/
def Obligations.RedrawRestores : Prop :=
  ∀ x y n s t, exec (.drw x y n) s = .next t →
    ∀ (x' y' : Reg) (t' : State), t'.display = t.display → t'.i = s.i →
      (∀ k < n.toNat, t'.readByte (s.base + k) = s.readByte (s.base + k)) →
      t'.getV x' = s.getV x → t'.getV y' = s.getV y →
      ∃ u, exec (.drw x' y' n) t' = .next u ∧ u.display = s.display ∧
        (s.display = clearDisplay →
          u.getV 0xF = if ∃ k, k < n.toNat ∧ s.readByte (s.base + k) ≠ 0 then 1 else 0)

/-! ### Input and timers -/

/-- R311, R312, R313: SKP and SKNP on the key's level; above 0xF as the policy says, under `Draw` either way. -/
def Obligations.KeySkips : Prop :=
  (RowDecodes 0xE09E 0xF0FF (fun w => .skp (fieldX w)) ∧ RowDecodes 0xE0A1 0xF0FF (fun w => .sknp (fieldX w))) ∧
  (∀ x s, ∃ (down : Bool) (q : Supply),
    ((s.getV x).toNat ≤ 15 → down = s.keys.getLsbD (s.getV x).toNat ∧ q = s.choices) ∧
    (15 < (s.getV x).toNat → s.cfg.keyIndexPolicy = .notPressed → down = false ∧ q = s.choices) ∧
    (15 < (s.getV x).toNat → s.cfg.keyIndexPolicy = .lowNibble →
      down = s.keys.getLsbD ((s.getV x).toNat % 16) ∧ q = s.choices) ∧
    exec (.skp x) s = .next { s with choices := q, pc := if down then s.pc + 2 else s.pc } ∧
    exec (.sknp x) s = .next { s with choices := q, pc := if down then s.pc else s.pc + 2 }) ∧
  (∀ x (s : State) (down : Bool), 15 < (s.getV x).toNat → s.cfg.keyIndexPolicy = .draw → ∃ q t u,
    exec (.skp x) { s with choices := q } = .next t ∧ t.pc = (if down then s.pc + 2 else s.pc) ∧
    exec (.sknp x) { s with choices := q } = .next u ∧ u.pc = (if down then s.pc else s.pc + 2))

/-- R314, R317, R318, R362: the timer instructions, and the sound output while ST is not 0. -/
def Obligations.TimerTransfers : Prop :=
  (RowDecodes 0xF007 0xF0FF (fun w => .ldVxDT (fieldX w)) ∧ RowDecodes 0xF015 0xF0FF (fun w => .ldDTVx (fieldX w)) ∧
    RowDecodes 0xF018 0xF0FF (fun w => .ldSTVx (fieldX w))) ∧
  (∀ x s, ∃ t, exec (.ldVxDT x) s = .next t ∧ t.getV x = s.dt ∧ OnlyRegs [x] s t) ∧
  (∀ x s, ∃ t, exec (.ldDTVx x) s = .next t ∧ t = { s with dt := s.getV x } ∧ SameMemory s t) ∧
  (∀ x s, ∃ t, exec (.ldSTVx x) s = .next t ∧ t = { s with st := s.getV x } ∧ SameMemory s t) ∧
  (∀ s : State, s.soundActive = true ↔ s.st ≠ 0)

/-- R316: LD Vx,K enters the wait, records the keys under the edge trigger alone, and looks at no key. -/
def Obligations.KeyWaitEntered : Prop :=
  RowDecodes 0xF00A 0xF0FF (fun w => .ldVxK (fieldX w)) ∧
  ∀ x s, ∃ t, exec (.ldVxK x) s = .next t ∧
    (s.cfg.keyWaitTrigger = .level → t.lastKeys = s.lastKeys) ∧
    (s.cfg.keyWaitTrigger = .edge → t.lastKeys = s.keys) ∧
    t = { s with mode := .awaitingKey x, lastKeys := t.lastKeys } ∧ SameMemory s t
end

