-- ==== Sys2Proof/Laws/Decode.lean ====
section
/-! SUPPORT. Decoding: the fields as arithmetic on the word, the fields of an encoded word, and what each row
of the opcode map decodes to. -/

namespace Sys2Proof

/-! ### The fields as arithmetic (R101) -/

theorem fieldClass_toNat (w : Word) : (fieldClass w).toNat = w.toNat / 4096 := by
  have := w.isLt
  simp [fieldClass, BitVec.extractLsb'_toNat, Nat.shiftRight_eq_div_pow]; omega

theorem fieldX_val (w : Word) : (fieldX w).val = w.toNat / 256 % 16 := by
  simp [fieldX, Nat.shiftRight_eq_div_pow]

theorem fieldY_val (w : Word) : (fieldY w).val = w.toNat / 16 % 16 := by
  simp [fieldY, Nat.shiftRight_eq_div_pow]

theorem fieldKK_toNat (w : Word) : (fieldKK w).toNat = w.toNat % 256 := by
  simp [fieldKK, BitVec.extractLsb'_toNat, Nat.shiftRight_eq_div_pow]

theorem fieldNNN_toNat (w : Word) : (fieldNNN w).toNat = w.toNat % 4096 := by
  simp [fieldNNN, BitVec.extractLsb'_toNat, Nat.shiftRight_eq_div_pow]

theorem fieldN_toNat (w : Word) : (fieldN w).toNat = w.toNat % 16 := by
  simp [fieldN, BitVec.extractLsb'_toNat, Nat.shiftRight_eq_div_pow]

/-! ### The words of the encoder -/

theorem append_toNat {n m : Nat} (a : BitVec n) (b : BitVec m) :
    (a ++ b).toNat = a.toNat * 2 ^ m + b.toNat := by
  rw [BitVec.toNat_append, ← Nat.shiftLeft_add_eq_or_of_lt b.isLt, Nat.shiftLeft_eq]

theorem wordNNN_toNat (c : BitVec 4) (nnn : Addr12) : (wordNNN c nnn).toNat = c.toNat * 4096 + nnn.toNat :=
  append_toNat c nnn

theorem wordXKK_toNat (c : BitVec 4) (x : Reg) (kk : Byte) :
    (wordXKK c x kk).toNat = c.toNat * 4096 + x.val * 256 + kk.toNat := by
  refine (append_toNat (c ++ (BitVec.ofFin x : BitVec 4)) kk).trans ?_
  rw [append_toNat]
  simp only [BitVec.toNat_ofFin]; omega

theorem wordXYN_toNat (c : BitVec 4) (x y : Reg) (n : BitVec 4) :
    (wordXYN c x y n).toNat = c.toNat * 4096 + x.val * 256 + y.val * 16 + n.toNat := by
  refine (append_toNat (c ++ (BitVec.ofFin x : BitVec 4) ++ (BitVec.ofFin y : BitVec 4)) n).trans ?_
  rw [append_toNat, append_toNat]
  simp only [BitVec.toNat_ofFin]; omega

section
variable (c : BitVec 4) (x y : Reg) (kk : Byte) (nnn : Addr12) (n : BitVec 4)

@[simp] theorem fieldClass_wordNNN : fieldClass (wordNNN c nnn) = c := by
  apply BitVec.eq_of_toNat_eq; rw [fieldClass_toNat, wordNNN_toNat]; omega

@[simp] theorem fieldNNN_wordNNN : fieldNNN (wordNNN c nnn) = nnn := by
  apply BitVec.eq_of_toNat_eq; rw [fieldNNN_toNat, wordNNN_toNat]; omega

@[simp] theorem fieldClass_wordXKK : fieldClass (wordXKK c x kk) = c := by
  apply BitVec.eq_of_toNat_eq; rw [fieldClass_toNat, wordXKK_toNat]; omega

@[simp] theorem fieldX_wordXKK : fieldX (wordXKK c x kk) = x := by
  apply Fin.ext; rw [fieldX_val, wordXKK_toNat]; omega

@[simp] theorem fieldKK_wordXKK : fieldKK (wordXKK c x kk) = kk := by
  apply BitVec.eq_of_toNat_eq; rw [fieldKK_toNat, wordXKK_toNat]; omega

@[simp] theorem fieldClass_wordXYN : fieldClass (wordXYN c x y n) = c := by
  apply BitVec.eq_of_toNat_eq; rw [fieldClass_toNat, wordXYN_toNat]; omega

@[simp] theorem fieldX_wordXYN : fieldX (wordXYN c x y n) = x := by
  apply Fin.ext; rw [fieldX_val, wordXYN_toNat]; omega

@[simp] theorem fieldY_wordXYN : fieldY (wordXYN c x y n) = y := by
  apply Fin.ext; rw [fieldY_val, wordXYN_toNat]; omega

@[simp] theorem fieldN_wordXYN : fieldN (wordXYN c x y n) = n := by
  apply BitVec.eq_of_toNat_eq; rw [fieldN_toNat, wordXYN_toNat]; omega

end

/-- A word is its class and nnn. -/
theorem eq_wordNNN (w : Word) : w = wordNNN (fieldClass w) (fieldNNN w) := by
  apply BitVec.eq_of_toNat_eq; rw [wordNNN_toNat, fieldClass_toNat, fieldNNN_toNat]; omega

/-- A word is its class, x and kk. -/
theorem eq_wordXKK (w : Word) : w = wordXKK (fieldClass w) (fieldX w) (fieldKK w) := by
  apply BitVec.eq_of_toNat_eq; rw [wordXKK_toNat, fieldClass_toNat, fieldX_val, fieldKK_toNat]; omega

/-- A word is its class, x, y and n. -/
theorem eq_wordXYN (w : Word) : w = wordXYN (fieldClass w) (fieldX w) (fieldY w) (fieldN w) := by
  apply BitVec.eq_of_toNat_eq
  rw [wordXYN_toNat, fieldClass_toNat, fieldX_val, fieldY_val, fieldN_toNat]; omega

/-- The two bytes of a word are the word (R100). -/
@[simp] theorem wordOfBytes_bytes (w : Word) : wordOfBytes (highByte w) (lowByte w) = w := by
  apply BitVec.eq_of_toNat_eq
  refine (append_toNat (highByte w) (lowByte w)).trans ?_
  have := w.isLt
  simp only [highByte, lowByte, BitVec.extractLsb'_toNat, Nat.shiftRight_eq_div_pow]
  omega

/-! ### Rows: the bits a mask compares give the fields the dispatch looks at -/

section
variable {w m p : Word}

theorem fieldClass_of_row {c : BitVec 4} (h : w &&& m = p) (hm : fieldClass m = BitVec.allOnes 4)
    (hp : fieldClass p = c) : fieldClass w = c := by
  rw [← hp, ← h]
  simp only [fieldClass, BitVec.extractLsb'_and] at hm ⊢
  rw [hm, BitVec.and_allOnes]

theorem fieldKK_of_row {c : Byte} (h : w &&& m = p) (hm : fieldKK m = BitVec.allOnes 8)
    (hp : fieldKK p = c) : fieldKK w = c := by
  rw [← hp, ← h]
  simp only [fieldKK, BitVec.extractLsb'_and] at hm ⊢
  rw [hm, BitVec.and_allOnes]

theorem fieldN_of_row {c : BitVec 4} (h : w &&& m = p) (hm : fieldN m = BitVec.allOnes 4)
    (hp : fieldN p = c) : fieldN w = c := by
  rw [← hp, ← h]
  simp only [fieldN, BitVec.extractLsb'_and] at hm ⊢
  rw [hm, BitVec.and_allOnes]

theorem fieldClass_and (w m : Word) : fieldClass (w &&& m) = fieldClass w &&& fieldClass m := by
  simp only [fieldClass, BitVec.extractLsb'_and]

theorem fieldKK_and (w m : Word) : fieldKK (w &&& m) = fieldKK w &&& fieldKK m := by
  simp only [fieldKK, BitVec.extractLsb'_and]

theorem fieldN_and (w m : Word) : fieldN (w &&& m) = fieldN w &&& fieldN m := by
  simp only [fieldN, BitVec.extractLsb'_and]

theorem fieldNNN_and (w m : Word) : fieldNNN (w &&& m) = fieldNNN w &&& fieldNNN m := by
  simp only [fieldNNN, BitVec.extractLsb'_and]

theorem fieldX_and_eq_zero {w m : Word} (h : fieldX m = 0) : fieldX (w &&& m) = 0 := by
  simp only [fieldX] at h ⊢
  rw [BitVec.extractLsb'_and]
  have hm : m.extractLsb' 8 4 = 0#4 := BitVec.eq_of_toFin_eq h
  rw [hm, BitVec.and_zero]; rfl

theorem fieldY_and_eq_zero {w m : Word} (h : fieldY m = 0) : fieldY (w &&& m) = 0 := by
  simp only [fieldY] at h ⊢
  rw [BitVec.extractLsb'_and]
  have hm : m.extractLsb' 4 4 = 0#4 := BitVec.eq_of_toFin_eq h
  rw [hm, BitVec.and_zero]; rfl

/-- The mask of a class alone keeps the class. -/
theorem and_classMask (w : Word) : w &&& 0xF000#16 = wordNNN (fieldClass w) 0 := by
  rw [eq_wordNNN (w &&& 0xF000#16), fieldClass_and, fieldNNN_and,
    show fieldClass 0xF000#16 = BitVec.allOnes 4 from rfl, show fieldNNN 0xF000#16 = 0#12 from rfl,
    BitVec.and_allOnes, BitVec.and_zero]
  rfl

/-- The mask of class and low byte keeps both. -/
theorem and_byteMask (w : Word) : w &&& 0xF0FF#16 = wordXKK (fieldClass w) 0 (fieldKK w) := by
  rw [eq_wordXKK (w &&& 0xF0FF#16), fieldClass_and, fieldKK_and, fieldX_and_eq_zero rfl,
    show fieldClass 0xF0FF#16 = BitVec.allOnes 4 from rfl, show fieldKK 0xF0FF#16 = BitVec.allOnes 8 from rfl,
    BitVec.and_allOnes, BitVec.and_allOnes]

/-- The mask of class and low nibble keeps both. -/
theorem and_nibbleMask (w : Word) : w &&& 0xF00F#16 = wordXYN (fieldClass w) 0 0 (fieldN w) := by
  rw [eq_wordXYN (w &&& 0xF00F#16), fieldClass_and, fieldN_and, fieldX_and_eq_zero rfl, fieldY_and_eq_zero rfl,
    show fieldClass 0xF00F#16 = BitVec.allOnes 4 from rfl, show fieldN 0xF00F#16 = BitVec.allOnes 4 from rfl,
    BitVec.and_allOnes, BitVec.and_allOnes]

end

/-! ### What each row decodes to (R108) -/

theorem decode_row_cls {w : Word} (h : w &&& 0xF0FF#16 = 0x00E0#16) :
    decode w = .instr .cls := by
  simp [decode, decodeClass0, fieldClass_of_row (c := 0x0#4) h rfl rfl,
    fieldKK_of_row (c := 0xE0#8) h rfl rfl]

theorem decode_row_ret {w : Word} (h : w &&& 0xF0FF#16 = 0x00EE#16) :
    decode w = .instr .ret := by
  simp [decode, decodeClass0, fieldClass_of_row (c := 0x0#4) h rfl rfl,
    fieldKK_of_row (c := 0xEE#8) h rfl rfl]

theorem decode_row_jp {w : Word} (h : w &&& 0xF000#16 = 0x1000#16) :
    decode w = .instr (.jp (fieldNNN w)) := by
  simp [decode, fieldClass_of_row (c := 0x1#4) h rfl rfl]

theorem decode_row_call {w : Word} (h : w &&& 0xF000#16 = 0x2000#16) :
    decode w = .instr (.call (fieldNNN w)) := by
  simp [decode, fieldClass_of_row (c := 0x2#4) h rfl rfl]

theorem decode_row_seImm {w : Word} (h : w &&& 0xF000#16 = 0x3000#16) :
    decode w = .instr (.seImm (fieldX w) (fieldKK w)) := by
  simp [decode, fieldClass_of_row (c := 0x3#4) h rfl rfl]

theorem decode_row_sneImm {w : Word} (h : w &&& 0xF000#16 = 0x4000#16) :
    decode w = .instr (.sneImm (fieldX w) (fieldKK w)) := by
  simp [decode, fieldClass_of_row (c := 0x4#4) h rfl rfl]

theorem decode_row_seReg {w : Word} (h : w &&& 0xF000#16 = 0x5000#16) :
    decode w = .instr (.seReg (fieldX w) (fieldY w)) := by
  simp [decode, fieldClass_of_row (c := 0x5#4) h rfl rfl]

theorem decode_row_ldImm {w : Word} (h : w &&& 0xF000#16 = 0x6000#16) :
    decode w = .instr (.ldImm (fieldX w) (fieldKK w)) := by
  simp [decode, fieldClass_of_row (c := 0x6#4) h rfl rfl]

theorem decode_row_addImm {w : Word} (h : w &&& 0xF000#16 = 0x7000#16) :
    decode w = .instr (.addImm (fieldX w) (fieldKK w)) := by
  simp [decode, fieldClass_of_row (c := 0x7#4) h rfl rfl]

theorem decode_row_ldReg {w : Word} (h : w &&& 0xF00F#16 = 0x8000#16) :
    decode w = .instr (.ldReg (fieldX w) (fieldY w)) := by
  simp [decode, decodeClass8, fieldClass_of_row (c := 0x8#4) h rfl rfl,
    fieldN_of_row (c := 0x0#4) h rfl rfl]

theorem decode_row_orReg {w : Word} (h : w &&& 0xF00F#16 = 0x8001#16) :
    decode w = .instr (.orReg (fieldX w) (fieldY w)) := by
  simp [decode, decodeClass8, fieldClass_of_row (c := 0x8#4) h rfl rfl,
    fieldN_of_row (c := 0x1#4) h rfl rfl]

theorem decode_row_andReg {w : Word} (h : w &&& 0xF00F#16 = 0x8002#16) :
    decode w = .instr (.andReg (fieldX w) (fieldY w)) := by
  simp [decode, decodeClass8, fieldClass_of_row (c := 0x8#4) h rfl rfl,
    fieldN_of_row (c := 0x2#4) h rfl rfl]

theorem decode_row_xorReg {w : Word} (h : w &&& 0xF00F#16 = 0x8003#16) :
    decode w = .instr (.xorReg (fieldX w) (fieldY w)) := by
  simp [decode, decodeClass8, fieldClass_of_row (c := 0x8#4) h rfl rfl,
    fieldN_of_row (c := 0x3#4) h rfl rfl]

theorem decode_row_addReg {w : Word} (h : w &&& 0xF00F#16 = 0x8004#16) :
    decode w = .instr (.addReg (fieldX w) (fieldY w)) := by
  simp [decode, decodeClass8, fieldClass_of_row (c := 0x8#4) h rfl rfl,
    fieldN_of_row (c := 0x4#4) h rfl rfl]

theorem decode_row_sub {w : Word} (h : w &&& 0xF00F#16 = 0x8005#16) :
    decode w = .instr (.sub (fieldX w) (fieldY w)) := by
  simp [decode, decodeClass8, fieldClass_of_row (c := 0x8#4) h rfl rfl,
    fieldN_of_row (c := 0x5#4) h rfl rfl]

theorem decode_row_shr {w : Word} (h : w &&& 0xF00F#16 = 0x8006#16) :
    decode w = .instr (.shr (fieldX w) (fieldY w)) := by
  simp [decode, decodeClass8, fieldClass_of_row (c := 0x8#4) h rfl rfl,
    fieldN_of_row (c := 0x6#4) h rfl rfl]

theorem decode_row_subn {w : Word} (h : w &&& 0xF00F#16 = 0x8007#16) :
    decode w = .instr (.subn (fieldX w) (fieldY w)) := by
  simp [decode, decodeClass8, fieldClass_of_row (c := 0x8#4) h rfl rfl,
    fieldN_of_row (c := 0x7#4) h rfl rfl]

theorem decode_row_shl {w : Word} (h : w &&& 0xF00F#16 = 0x800E#16) :
    decode w = .instr (.shl (fieldX w) (fieldY w)) := by
  simp [decode, decodeClass8, fieldClass_of_row (c := 0x8#4) h rfl rfl,
    fieldN_of_row (c := 0xE#4) h rfl rfl]

theorem decode_row_sneReg {w : Word} (h : w &&& 0xF000#16 = 0x9000#16) :
    decode w = .instr (.sneReg (fieldX w) (fieldY w)) := by
  simp [decode, fieldClass_of_row (c := 0x9#4) h rfl rfl]

theorem decode_row_ldI {w : Word} (h : w &&& 0xF000#16 = 0xA000#16) :
    decode w = .instr (.ldI (fieldNNN w)) := by
  simp [decode, fieldClass_of_row (c := 0xA#4) h rfl rfl]

theorem decode_row_jpV0 {w : Word} (h : w &&& 0xF000#16 = 0xB000#16) :
    decode w = .instr (.jpV0 (fieldNNN w)) := by
  simp [decode, fieldClass_of_row (c := 0xB#4) h rfl rfl]

theorem decode_row_rnd {w : Word} (h : w &&& 0xF000#16 = 0xC000#16) :
    decode w = .instr (.rnd (fieldX w) (fieldKK w)) := by
  simp [decode, fieldClass_of_row (c := 0xC#4) h rfl rfl]

theorem decode_row_drw {w : Word} (h : w &&& 0xF000#16 = 0xD000#16) :
    decode w = .instr (.drw (fieldX w) (fieldY w) (fieldN w)) := by
  simp [decode, fieldClass_of_row (c := 0xD#4) h rfl rfl]

theorem decode_row_skp {w : Word} (h : w &&& 0xF0FF#16 = 0xE09E#16) :
    decode w = .instr (.skp (fieldX w)) := by
  simp [decode, decodeClassE, fieldClass_of_row (c := 0xE#4) h rfl rfl,
    fieldKK_of_row (c := 0x9E#8) h rfl rfl]

theorem decode_row_sknp {w : Word} (h : w &&& 0xF0FF#16 = 0xE0A1#16) :
    decode w = .instr (.sknp (fieldX w)) := by
  simp [decode, decodeClassE, fieldClass_of_row (c := 0xE#4) h rfl rfl,
    fieldKK_of_row (c := 0xA1#8) h rfl rfl]

theorem decode_row_ldVxDT {w : Word} (h : w &&& 0xF0FF#16 = 0xF007#16) :
    decode w = .instr (.ldVxDT (fieldX w)) := by
  simp [decode, decodeClassF, fieldClass_of_row (c := 0xF#4) h rfl rfl,
    fieldKK_of_row (c := 0x07#8) h rfl rfl]

theorem decode_row_ldVxK {w : Word} (h : w &&& 0xF0FF#16 = 0xF00A#16) :
    decode w = .instr (.ldVxK (fieldX w)) := by
  simp [decode, decodeClassF, fieldClass_of_row (c := 0xF#4) h rfl rfl,
    fieldKK_of_row (c := 0x0A#8) h rfl rfl]

theorem decode_row_ldDTVx {w : Word} (h : w &&& 0xF0FF#16 = 0xF015#16) :
    decode w = .instr (.ldDTVx (fieldX w)) := by
  simp [decode, decodeClassF, fieldClass_of_row (c := 0xF#4) h rfl rfl,
    fieldKK_of_row (c := 0x15#8) h rfl rfl]

theorem decode_row_ldSTVx {w : Word} (h : w &&& 0xF0FF#16 = 0xF018#16) :
    decode w = .instr (.ldSTVx (fieldX w)) := by
  simp [decode, decodeClassF, fieldClass_of_row (c := 0xF#4) h rfl rfl,
    fieldKK_of_row (c := 0x18#8) h rfl rfl]

theorem decode_row_addI {w : Word} (h : w &&& 0xF0FF#16 = 0xF01E#16) :
    decode w = .instr (.addI (fieldX w)) := by
  simp [decode, decodeClassF, fieldClass_of_row (c := 0xF#4) h rfl rfl,
    fieldKK_of_row (c := 0x1E#8) h rfl rfl]

theorem decode_row_ldF {w : Word} (h : w &&& 0xF0FF#16 = 0xF029#16) :
    decode w = .instr (.ldF (fieldX w)) := by
  simp [decode, decodeClassF, fieldClass_of_row (c := 0xF#4) h rfl rfl,
    fieldKK_of_row (c := 0x29#8) h rfl rfl]

theorem decode_row_ldB {w : Word} (h : w &&& 0xF0FF#16 = 0xF033#16) :
    decode w = .instr (.ldB (fieldX w)) := by
  simp [decode, decodeClassF, fieldClass_of_row (c := 0xF#4) h rfl rfl,
    fieldKK_of_row (c := 0x33#8) h rfl rfl]

theorem decode_row_storeRegs {w : Word} (h : w &&& 0xF0FF#16 = 0xF055#16) :
    decode w = .instr (.storeRegs (fieldX w)) := by
  simp [decode, decodeClassF, fieldClass_of_row (c := 0xF#4) h rfl rfl,
    fieldKK_of_row (c := 0x55#8) h rfl rfl]

theorem decode_row_loadRegs {w : Word} (h : w &&& 0xF0FF#16 = 0xF065#16) :
    decode w = .instr (.loadRegs (fieldX w)) := by
  simp [decode, decodeClassF, fieldClass_of_row (c := 0xF#4) h rfl rfl,
    fieldKK_of_row (c := 0x65#8) h rfl rfl]

/-! ### The other direction -/

/-- A word that decodes to an instruction selects that instruction's row. -/
theorem selectedBy_of_decode {w : Word} {i : Instr} (h : decode w = .instr i) : (rowOf i).selectedBy w = true := by
  unfold decode at h
  split at h
  case h_1 hc =>
    unfold decodeClass0 at h
    split at h <;> cases h
    all_goals
      next hk =>
      simp only [rowOf, Row.selectedBy, and_byteMask, hc, hk]; rfl
  case h_9 hc =>
    unfold decodeClass8 at h
    split at h <;> cases h
    all_goals
      next hk =>
      simp only [rowOf, Row.selectedBy, and_nibbleMask, hc, hk]; rfl
  case h_15 hc =>
    unfold decodeClassE at h
    split at h <;> cases h
    all_goals
      next hk =>
      simp only [rowOf, Row.selectedBy, and_byteMask, hc, hk]; rfl
  case h_16 h0 h1 h2 h3 h4 h5 h6 h7 h8 h9 h10 h11 h12 h13 h14 =>
    have hc : fieldClass w = 0xF#4 := by
      apply BitVec.eq_of_toNat_eq
      have := (fieldClass w).isLt
      simp only [← BitVec.toNat_inj, BitVec.toNat_ofNat, imp_false] at h0 h1 h2 h3 h4 h5 h6 h7 h8 h9 h10 h11 h12 h13 h14
      simp only [BitVec.toNat_ofNat]
      omega
    unfold decodeClassF at h
    split at h <;> cases h
    all_goals
      next hk =>
      simp only [rowOf, Row.selectedBy, and_byteMask, hc, hk]; rfl
  all_goals
    next hc =>
    cases h
    simp only [rowOf, Row.selectedBy, and_classMask, hc]; rfl

/-- An unknown word is reported as it is. -/
theorem eq_of_decode_unknown {w u : Word} (h : decode w = .unknown u) : u = w := by
  unfold decode decodeClass0 decodeClass8 decodeClassE decodeClassF at h
  split at h <;> first | cases h | (split at h <;> (cases h; try rfl))

end Sys2Proof
end

