-- ==== Sys2Proof/Laws/State.lean ====
section
/-! SUPPORT. One lemma for each field and each named update of the state, so that no proof unfolds an update. -/

namespace Sys2Proof.Machine

section
variable (s : State) (x : Reg) (b : Byte)

@[simp] theorem setV_v : (s.setV x b).v = s.v.set x.val b := rfl
@[simp] theorem setV_i : (s.setV x b).i = s.i := rfl
@[simp] theorem setV_pc : (s.setV x b).pc = s.pc := rfl
@[simp] theorem setV_stack : (s.setV x b).stack = s.stack := rfl
@[simp] theorem setV_dt : (s.setV x b).dt = s.dt := rfl
@[simp] theorem setV_st : (s.setV x b).st = s.st := rfl
@[simp] theorem setV_display : (s.setV x b).display = s.display := rfl
@[simp] theorem setV_mode : (s.setV x b).mode = s.mode := rfl
@[simp] theorem setV_lastKeys : (s.setV x b).lastKeys = s.lastKeys := rfl
@[simp] theorem setV_mem : (s.setV x b).mem = s.mem := rfl
@[simp] theorem setV_keys : (s.setV x b).keys = s.keys := rfl
@[simp] theorem setV_loaded : (s.setV x b).loaded = s.loaded := rfl
@[simp] theorem setV_cfg : (s.setV x b).cfg = s.cfg := rfl
@[simp] theorem setV_rng : (s.setV x b).rng = s.rng := rfl
@[simp] theorem setV_choices : (s.setV x b).choices = s.choices := rfl
@[simp] theorem setV_calls : (s.setV x b).calls = s.calls := rfl
@[simp] theorem setV_plan : (s.setV x b).plan = s.plan := rfl
@[simp] theorem setV_onError : (s.setV x b).onError = s.onError := rfl
@[simp] theorem setV_outputs : (s.setV x b).outputs = s.outputs := rfl

end

section
variable (s : State) (r : RegFile)

@[simp] theorem setRegs_v : (s.setRegs r).v = r := rfl
@[simp] theorem setRegs_i : (s.setRegs r).i = s.i := rfl
@[simp] theorem setRegs_pc : (s.setRegs r).pc = s.pc := rfl
@[simp] theorem setRegs_stack : (s.setRegs r).stack = s.stack := rfl
@[simp] theorem setRegs_dt : (s.setRegs r).dt = s.dt := rfl
@[simp] theorem setRegs_st : (s.setRegs r).st = s.st := rfl
@[simp] theorem setRegs_display : (s.setRegs r).display = s.display := rfl
@[simp] theorem setRegs_mode : (s.setRegs r).mode = s.mode := rfl
@[simp] theorem setRegs_lastKeys : (s.setRegs r).lastKeys = s.lastKeys := rfl
@[simp] theorem setRegs_mem : (s.setRegs r).mem = s.mem := rfl
@[simp] theorem setRegs_keys : (s.setRegs r).keys = s.keys := rfl
@[simp] theorem setRegs_loaded : (s.setRegs r).loaded = s.loaded := rfl
@[simp] theorem setRegs_cfg : (s.setRegs r).cfg = s.cfg := rfl
@[simp] theorem setRegs_rng : (s.setRegs r).rng = s.rng := rfl
@[simp] theorem setRegs_choices : (s.setRegs r).choices = s.choices := rfl
@[simp] theorem setRegs_calls : (s.setRegs r).calls = s.calls := rfl
@[simp] theorem setRegs_plan : (s.setRegs r).plan = s.plan := rfl
@[simp] theorem setRegs_onError : (s.setRegs r).onError = s.onError := rfl
@[simp] theorem setRegs_outputs : (s.setRegs r).outputs = s.outputs := rfl

end

section
variable (s : State) (w : Word)

@[simp] theorem setI_v : (s.setI w).v = s.v := rfl
@[simp] theorem setI_i : (s.setI w).i = w := rfl
@[simp] theorem setI_pc : (s.setI w).pc = s.pc := rfl
@[simp] theorem setI_stack : (s.setI w).stack = s.stack := rfl
@[simp] theorem setI_dt : (s.setI w).dt = s.dt := rfl
@[simp] theorem setI_st : (s.setI w).st = s.st := rfl
@[simp] theorem setI_display : (s.setI w).display = s.display := rfl
@[simp] theorem setI_mode : (s.setI w).mode = s.mode := rfl
@[simp] theorem setI_lastKeys : (s.setI w).lastKeys = s.lastKeys := rfl
@[simp] theorem setI_mem : (s.setI w).mem = s.mem := rfl
@[simp] theorem setI_keys : (s.setI w).keys = s.keys := rfl
@[simp] theorem setI_loaded : (s.setI w).loaded = s.loaded := rfl
@[simp] theorem setI_cfg : (s.setI w).cfg = s.cfg := rfl
@[simp] theorem setI_rng : (s.setI w).rng = s.rng := rfl
@[simp] theorem setI_choices : (s.setI w).choices = s.choices := rfl
@[simp] theorem setI_calls : (s.setI w).calls = s.calls := rfl
@[simp] theorem setI_plan : (s.setI w).plan = s.plan := rfl
@[simp] theorem setI_onError : (s.setI w).onError = s.onError := rfl
@[simp] theorem setI_outputs : (s.setI w).outputs = s.outputs := rfl

end

section
variable (s : State) (w : Word)

@[simp] theorem setPc_v : (s.setPc w).v = s.v := rfl
@[simp] theorem setPc_i : (s.setPc w).i = s.i := rfl
@[simp] theorem setPc_pc : (s.setPc w).pc = w := rfl
@[simp] theorem setPc_stack : (s.setPc w).stack = s.stack := rfl
@[simp] theorem setPc_dt : (s.setPc w).dt = s.dt := rfl
@[simp] theorem setPc_st : (s.setPc w).st = s.st := rfl
@[simp] theorem setPc_display : (s.setPc w).display = s.display := rfl
@[simp] theorem setPc_mode : (s.setPc w).mode = s.mode := rfl
@[simp] theorem setPc_lastKeys : (s.setPc w).lastKeys = s.lastKeys := rfl
@[simp] theorem setPc_mem : (s.setPc w).mem = s.mem := rfl
@[simp] theorem setPc_keys : (s.setPc w).keys = s.keys := rfl
@[simp] theorem setPc_loaded : (s.setPc w).loaded = s.loaded := rfl
@[simp] theorem setPc_cfg : (s.setPc w).cfg = s.cfg := rfl
@[simp] theorem setPc_rng : (s.setPc w).rng = s.rng := rfl
@[simp] theorem setPc_choices : (s.setPc w).choices = s.choices := rfl
@[simp] theorem setPc_calls : (s.setPc w).calls = s.calls := rfl
@[simp] theorem setPc_plan : (s.setPc w).plan = s.plan := rfl
@[simp] theorem setPc_onError : (s.setPc w).onError = s.onError := rfl
@[simp] theorem setPc_outputs : (s.setPc w).outputs = s.outputs := rfl

end

section
variable (s : State) (l : List Word)

@[simp] theorem setStack_v : (s.setStack l).v = s.v := rfl
@[simp] theorem setStack_i : (s.setStack l).i = s.i := rfl
@[simp] theorem setStack_pc : (s.setStack l).pc = s.pc := rfl
@[simp] theorem setStack_stack : (s.setStack l).stack = l := rfl
@[simp] theorem setStack_dt : (s.setStack l).dt = s.dt := rfl
@[simp] theorem setStack_st : (s.setStack l).st = s.st := rfl
@[simp] theorem setStack_display : (s.setStack l).display = s.display := rfl
@[simp] theorem setStack_mode : (s.setStack l).mode = s.mode := rfl
@[simp] theorem setStack_lastKeys : (s.setStack l).lastKeys = s.lastKeys := rfl
@[simp] theorem setStack_mem : (s.setStack l).mem = s.mem := rfl
@[simp] theorem setStack_keys : (s.setStack l).keys = s.keys := rfl
@[simp] theorem setStack_loaded : (s.setStack l).loaded = s.loaded := rfl
@[simp] theorem setStack_cfg : (s.setStack l).cfg = s.cfg := rfl
@[simp] theorem setStack_rng : (s.setStack l).rng = s.rng := rfl
@[simp] theorem setStack_choices : (s.setStack l).choices = s.choices := rfl
@[simp] theorem setStack_calls : (s.setStack l).calls = s.calls := rfl
@[simp] theorem setStack_plan : (s.setStack l).plan = s.plan := rfl
@[simp] theorem setStack_onError : (s.setStack l).onError = s.onError := rfl
@[simp] theorem setStack_outputs : (s.setStack l).outputs = s.outputs := rfl

end

section
variable (s : State) (b : Byte)

@[simp] theorem setDT_v : (s.setDT b).v = s.v := rfl
@[simp] theorem setDT_i : (s.setDT b).i = s.i := rfl
@[simp] theorem setDT_pc : (s.setDT b).pc = s.pc := rfl
@[simp] theorem setDT_stack : (s.setDT b).stack = s.stack := rfl
@[simp] theorem setDT_dt : (s.setDT b).dt = b := rfl
@[simp] theorem setDT_st : (s.setDT b).st = s.st := rfl
@[simp] theorem setDT_display : (s.setDT b).display = s.display := rfl
@[simp] theorem setDT_mode : (s.setDT b).mode = s.mode := rfl
@[simp] theorem setDT_lastKeys : (s.setDT b).lastKeys = s.lastKeys := rfl
@[simp] theorem setDT_mem : (s.setDT b).mem = s.mem := rfl
@[simp] theorem setDT_keys : (s.setDT b).keys = s.keys := rfl
@[simp] theorem setDT_loaded : (s.setDT b).loaded = s.loaded := rfl
@[simp] theorem setDT_cfg : (s.setDT b).cfg = s.cfg := rfl
@[simp] theorem setDT_rng : (s.setDT b).rng = s.rng := rfl
@[simp] theorem setDT_choices : (s.setDT b).choices = s.choices := rfl
@[simp] theorem setDT_calls : (s.setDT b).calls = s.calls := rfl
@[simp] theorem setDT_plan : (s.setDT b).plan = s.plan := rfl
@[simp] theorem setDT_onError : (s.setDT b).onError = s.onError := rfl
@[simp] theorem setDT_outputs : (s.setDT b).outputs = s.outputs := rfl

end

section
variable (s : State) (b : Byte)

@[simp] theorem setST_v : (s.setST b).v = s.v := rfl
@[simp] theorem setST_i : (s.setST b).i = s.i := rfl
@[simp] theorem setST_pc : (s.setST b).pc = s.pc := rfl
@[simp] theorem setST_stack : (s.setST b).stack = s.stack := rfl
@[simp] theorem setST_dt : (s.setST b).dt = s.dt := rfl
@[simp] theorem setST_st : (s.setST b).st = b := rfl
@[simp] theorem setST_display : (s.setST b).display = s.display := rfl
@[simp] theorem setST_mode : (s.setST b).mode = s.mode := rfl
@[simp] theorem setST_lastKeys : (s.setST b).lastKeys = s.lastKeys := rfl
@[simp] theorem setST_mem : (s.setST b).mem = s.mem := rfl
@[simp] theorem setST_keys : (s.setST b).keys = s.keys := rfl
@[simp] theorem setST_loaded : (s.setST b).loaded = s.loaded := rfl
@[simp] theorem setST_cfg : (s.setST b).cfg = s.cfg := rfl
@[simp] theorem setST_rng : (s.setST b).rng = s.rng := rfl
@[simp] theorem setST_choices : (s.setST b).choices = s.choices := rfl
@[simp] theorem setST_calls : (s.setST b).calls = s.calls := rfl
@[simp] theorem setST_plan : (s.setST b).plan = s.plan := rfl
@[simp] theorem setST_onError : (s.setST b).onError = s.onError := rfl
@[simp] theorem setST_outputs : (s.setST b).outputs = s.outputs := rfl

end

section
variable (s : State) (d : Display)

@[simp] theorem setDisplay_v : (s.setDisplay d).v = s.v := rfl
@[simp] theorem setDisplay_i : (s.setDisplay d).i = s.i := rfl
@[simp] theorem setDisplay_pc : (s.setDisplay d).pc = s.pc := rfl
@[simp] theorem setDisplay_stack : (s.setDisplay d).stack = s.stack := rfl
@[simp] theorem setDisplay_dt : (s.setDisplay d).dt = s.dt := rfl
@[simp] theorem setDisplay_st : (s.setDisplay d).st = s.st := rfl
@[simp] theorem setDisplay_display : (s.setDisplay d).display = d := rfl
@[simp] theorem setDisplay_mode : (s.setDisplay d).mode = s.mode := rfl
@[simp] theorem setDisplay_lastKeys : (s.setDisplay d).lastKeys = s.lastKeys := rfl
@[simp] theorem setDisplay_mem : (s.setDisplay d).mem = s.mem := rfl
@[simp] theorem setDisplay_keys : (s.setDisplay d).keys = s.keys := rfl
@[simp] theorem setDisplay_loaded : (s.setDisplay d).loaded = s.loaded := rfl
@[simp] theorem setDisplay_cfg : (s.setDisplay d).cfg = s.cfg := rfl
@[simp] theorem setDisplay_rng : (s.setDisplay d).rng = s.rng := rfl
@[simp] theorem setDisplay_choices : (s.setDisplay d).choices = s.choices := rfl
@[simp] theorem setDisplay_calls : (s.setDisplay d).calls = s.calls := rfl
@[simp] theorem setDisplay_plan : (s.setDisplay d).plan = s.plan := rfl
@[simp] theorem setDisplay_onError : (s.setDisplay d).onError = s.onError := rfl
@[simp] theorem setDisplay_outputs : (s.setDisplay d).outputs = s.outputs := rfl

end

section
variable (s : State) (m : Mode)

@[simp] theorem setMode_v : (s.setMode m).v = s.v := rfl
@[simp] theorem setMode_i : (s.setMode m).i = s.i := rfl
@[simp] theorem setMode_pc : (s.setMode m).pc = s.pc := rfl
@[simp] theorem setMode_stack : (s.setMode m).stack = s.stack := rfl
@[simp] theorem setMode_dt : (s.setMode m).dt = s.dt := rfl
@[simp] theorem setMode_st : (s.setMode m).st = s.st := rfl
@[simp] theorem setMode_display : (s.setMode m).display = s.display := rfl
@[simp] theorem setMode_mode : (s.setMode m).mode = m := rfl
@[simp] theorem setMode_lastKeys : (s.setMode m).lastKeys = s.lastKeys := rfl
@[simp] theorem setMode_mem : (s.setMode m).mem = s.mem := rfl
@[simp] theorem setMode_keys : (s.setMode m).keys = s.keys := rfl
@[simp] theorem setMode_loaded : (s.setMode m).loaded = s.loaded := rfl
@[simp] theorem setMode_cfg : (s.setMode m).cfg = s.cfg := rfl
@[simp] theorem setMode_rng : (s.setMode m).rng = s.rng := rfl
@[simp] theorem setMode_choices : (s.setMode m).choices = s.choices := rfl
@[simp] theorem setMode_calls : (s.setMode m).calls = s.calls := rfl
@[simp] theorem setMode_plan : (s.setMode m).plan = s.plan := rfl
@[simp] theorem setMode_onError : (s.setMode m).onError = s.onError := rfl
@[simp] theorem setMode_outputs : (s.setMode m).outputs = s.outputs := rfl

end

section
variable (s : State) (k : KeyMap)

@[simp] theorem setLastKeys_v : (s.setLastKeys k).v = s.v := rfl
@[simp] theorem setLastKeys_i : (s.setLastKeys k).i = s.i := rfl
@[simp] theorem setLastKeys_pc : (s.setLastKeys k).pc = s.pc := rfl
@[simp] theorem setLastKeys_stack : (s.setLastKeys k).stack = s.stack := rfl
@[simp] theorem setLastKeys_dt : (s.setLastKeys k).dt = s.dt := rfl
@[simp] theorem setLastKeys_st : (s.setLastKeys k).st = s.st := rfl
@[simp] theorem setLastKeys_display : (s.setLastKeys k).display = s.display := rfl
@[simp] theorem setLastKeys_mode : (s.setLastKeys k).mode = s.mode := rfl
@[simp] theorem setLastKeys_lastKeys : (s.setLastKeys k).lastKeys = k := rfl
@[simp] theorem setLastKeys_mem : (s.setLastKeys k).mem = s.mem := rfl
@[simp] theorem setLastKeys_keys : (s.setLastKeys k).keys = s.keys := rfl
@[simp] theorem setLastKeys_loaded : (s.setLastKeys k).loaded = s.loaded := rfl
@[simp] theorem setLastKeys_cfg : (s.setLastKeys k).cfg = s.cfg := rfl
@[simp] theorem setLastKeys_rng : (s.setLastKeys k).rng = s.rng := rfl
@[simp] theorem setLastKeys_choices : (s.setLastKeys k).choices = s.choices := rfl
@[simp] theorem setLastKeys_calls : (s.setLastKeys k).calls = s.calls := rfl
@[simp] theorem setLastKeys_plan : (s.setLastKeys k).plan = s.plan := rfl
@[simp] theorem setLastKeys_onError : (s.setLastKeys k).onError = s.onError := rfl
@[simp] theorem setLastKeys_outputs : (s.setLastKeys k).outputs = s.outputs := rfl

end

section
variable (s : State) (m : List Host.Cell)

@[simp] theorem setMem_v : (s.setMem m).v = s.v := rfl
@[simp] theorem setMem_i : (s.setMem m).i = s.i := rfl
@[simp] theorem setMem_pc : (s.setMem m).pc = s.pc := rfl
@[simp] theorem setMem_stack : (s.setMem m).stack = s.stack := rfl
@[simp] theorem setMem_dt : (s.setMem m).dt = s.dt := rfl
@[simp] theorem setMem_st : (s.setMem m).st = s.st := rfl
@[simp] theorem setMem_display : (s.setMem m).display = s.display := rfl
@[simp] theorem setMem_mode : (s.setMem m).mode = s.mode := rfl
@[simp] theorem setMem_lastKeys : (s.setMem m).lastKeys = s.lastKeys := rfl
@[simp] theorem setMem_mem : (s.setMem m).mem = m := rfl
@[simp] theorem setMem_keys : (s.setMem m).keys = s.keys := rfl
@[simp] theorem setMem_loaded : (s.setMem m).loaded = s.loaded := rfl
@[simp] theorem setMem_cfg : (s.setMem m).cfg = s.cfg := rfl
@[simp] theorem setMem_rng : (s.setMem m).rng = s.rng := rfl
@[simp] theorem setMem_choices : (s.setMem m).choices = s.choices := rfl
@[simp] theorem setMem_calls : (s.setMem m).calls = s.calls := rfl
@[simp] theorem setMem_plan : (s.setMem m).plan = s.plan := rfl
@[simp] theorem setMem_onError : (s.setMem m).onError = s.onError := rfl
@[simp] theorem setMem_outputs : (s.setMem m).outputs = s.outputs := rfl

end

section
variable (s : State) (k : KeyMap)

@[simp] theorem setKeys_v : (s.setKeys k).v = s.v := rfl
@[simp] theorem setKeys_i : (s.setKeys k).i = s.i := rfl
@[simp] theorem setKeys_pc : (s.setKeys k).pc = s.pc := rfl
@[simp] theorem setKeys_stack : (s.setKeys k).stack = s.stack := rfl
@[simp] theorem setKeys_dt : (s.setKeys k).dt = s.dt := rfl
@[simp] theorem setKeys_st : (s.setKeys k).st = s.st := rfl
@[simp] theorem setKeys_display : (s.setKeys k).display = s.display := rfl
@[simp] theorem setKeys_mode : (s.setKeys k).mode = s.mode := rfl
@[simp] theorem setKeys_lastKeys : (s.setKeys k).lastKeys = s.lastKeys := rfl
@[simp] theorem setKeys_mem : (s.setKeys k).mem = s.mem := rfl
@[simp] theorem setKeys_keys : (s.setKeys k).keys = k := rfl
@[simp] theorem setKeys_loaded : (s.setKeys k).loaded = s.loaded := rfl
@[simp] theorem setKeys_cfg : (s.setKeys k).cfg = s.cfg := rfl
@[simp] theorem setKeys_rng : (s.setKeys k).rng = s.rng := rfl
@[simp] theorem setKeys_choices : (s.setKeys k).choices = s.choices := rfl
@[simp] theorem setKeys_calls : (s.setKeys k).calls = s.calls := rfl
@[simp] theorem setKeys_plan : (s.setKeys k).plan = s.plan := rfl
@[simp] theorem setKeys_onError : (s.setKeys k).onError = s.onError := rfl
@[simp] theorem setKeys_outputs : (s.setKeys k).outputs = s.outputs := rfl

end

section
variable (s : State) (q : Supply)

@[simp] theorem setRng_v : (s.setRng q).v = s.v := rfl
@[simp] theorem setRng_i : (s.setRng q).i = s.i := rfl
@[simp] theorem setRng_pc : (s.setRng q).pc = s.pc := rfl
@[simp] theorem setRng_stack : (s.setRng q).stack = s.stack := rfl
@[simp] theorem setRng_dt : (s.setRng q).dt = s.dt := rfl
@[simp] theorem setRng_st : (s.setRng q).st = s.st := rfl
@[simp] theorem setRng_display : (s.setRng q).display = s.display := rfl
@[simp] theorem setRng_mode : (s.setRng q).mode = s.mode := rfl
@[simp] theorem setRng_lastKeys : (s.setRng q).lastKeys = s.lastKeys := rfl
@[simp] theorem setRng_mem : (s.setRng q).mem = s.mem := rfl
@[simp] theorem setRng_keys : (s.setRng q).keys = s.keys := rfl
@[simp] theorem setRng_loaded : (s.setRng q).loaded = s.loaded := rfl
@[simp] theorem setRng_cfg : (s.setRng q).cfg = s.cfg := rfl
@[simp] theorem setRng_rng : (s.setRng q).rng = q := rfl
@[simp] theorem setRng_choices : (s.setRng q).choices = s.choices := rfl
@[simp] theorem setRng_calls : (s.setRng q).calls = s.calls := rfl
@[simp] theorem setRng_plan : (s.setRng q).plan = s.plan := rfl
@[simp] theorem setRng_onError : (s.setRng q).onError = s.onError := rfl
@[simp] theorem setRng_outputs : (s.setRng q).outputs = s.outputs := rfl

end

section
variable (s : State) (q : Supply)

@[simp] theorem setChoices_v : (s.setChoices q).v = s.v := rfl
@[simp] theorem setChoices_i : (s.setChoices q).i = s.i := rfl
@[simp] theorem setChoices_pc : (s.setChoices q).pc = s.pc := rfl
@[simp] theorem setChoices_stack : (s.setChoices q).stack = s.stack := rfl
@[simp] theorem setChoices_dt : (s.setChoices q).dt = s.dt := rfl
@[simp] theorem setChoices_st : (s.setChoices q).st = s.st := rfl
@[simp] theorem setChoices_display : (s.setChoices q).display = s.display := rfl
@[simp] theorem setChoices_mode : (s.setChoices q).mode = s.mode := rfl
@[simp] theorem setChoices_lastKeys : (s.setChoices q).lastKeys = s.lastKeys := rfl
@[simp] theorem setChoices_mem : (s.setChoices q).mem = s.mem := rfl
@[simp] theorem setChoices_keys : (s.setChoices q).keys = s.keys := rfl
@[simp] theorem setChoices_loaded : (s.setChoices q).loaded = s.loaded := rfl
@[simp] theorem setChoices_cfg : (s.setChoices q).cfg = s.cfg := rfl
@[simp] theorem setChoices_rng : (s.setChoices q).rng = s.rng := rfl
@[simp] theorem setChoices_choices : (s.setChoices q).choices = q := rfl
@[simp] theorem setChoices_calls : (s.setChoices q).calls = s.calls := rfl
@[simp] theorem setChoices_plan : (s.setChoices q).plan = s.plan := rfl
@[simp] theorem setChoices_onError : (s.setChoices q).onError = s.onError := rfl
@[simp] theorem setChoices_outputs : (s.setChoices q).outputs = s.outputs := rfl

end

section
variable (s : State) (l : List HostCall)

@[simp] theorem setCalls_v : (s.setCalls l).v = s.v := rfl
@[simp] theorem setCalls_i : (s.setCalls l).i = s.i := rfl
@[simp] theorem setCalls_pc : (s.setCalls l).pc = s.pc := rfl
@[simp] theorem setCalls_stack : (s.setCalls l).stack = s.stack := rfl
@[simp] theorem setCalls_dt : (s.setCalls l).dt = s.dt := rfl
@[simp] theorem setCalls_st : (s.setCalls l).st = s.st := rfl
@[simp] theorem setCalls_display : (s.setCalls l).display = s.display := rfl
@[simp] theorem setCalls_mode : (s.setCalls l).mode = s.mode := rfl
@[simp] theorem setCalls_lastKeys : (s.setCalls l).lastKeys = s.lastKeys := rfl
@[simp] theorem setCalls_mem : (s.setCalls l).mem = s.mem := rfl
@[simp] theorem setCalls_keys : (s.setCalls l).keys = s.keys := rfl
@[simp] theorem setCalls_loaded : (s.setCalls l).loaded = s.loaded := rfl
@[simp] theorem setCalls_cfg : (s.setCalls l).cfg = s.cfg := rfl
@[simp] theorem setCalls_rng : (s.setCalls l).rng = s.rng := rfl
@[simp] theorem setCalls_choices : (s.setCalls l).choices = s.choices := rfl
@[simp] theorem setCalls_calls : (s.setCalls l).calls = l := rfl
@[simp] theorem setCalls_plan : (s.setCalls l).plan = s.plan := rfl
@[simp] theorem setCalls_onError : (s.setCalls l).onError = s.onError := rfl
@[simp] theorem setCalls_outputs : (s.setCalls l).outputs = s.outputs := rfl

end

section
variable (s : State) (p : CallPlan)

@[simp] theorem setPlan_v : (s.setPlan p).v = s.v := rfl
@[simp] theorem setPlan_i : (s.setPlan p).i = s.i := rfl
@[simp] theorem setPlan_pc : (s.setPlan p).pc = s.pc := rfl
@[simp] theorem setPlan_stack : (s.setPlan p).stack = s.stack := rfl
@[simp] theorem setPlan_dt : (s.setPlan p).dt = s.dt := rfl
@[simp] theorem setPlan_st : (s.setPlan p).st = s.st := rfl
@[simp] theorem setPlan_display : (s.setPlan p).display = s.display := rfl
@[simp] theorem setPlan_mode : (s.setPlan p).mode = s.mode := rfl
@[simp] theorem setPlan_lastKeys : (s.setPlan p).lastKeys = s.lastKeys := rfl
@[simp] theorem setPlan_mem : (s.setPlan p).mem = s.mem := rfl
@[simp] theorem setPlan_keys : (s.setPlan p).keys = s.keys := rfl
@[simp] theorem setPlan_loaded : (s.setPlan p).loaded = s.loaded := rfl
@[simp] theorem setPlan_cfg : (s.setPlan p).cfg = s.cfg := rfl
@[simp] theorem setPlan_rng : (s.setPlan p).rng = s.rng := rfl
@[simp] theorem setPlan_choices : (s.setPlan p).choices = s.choices := rfl
@[simp] theorem setPlan_calls : (s.setPlan p).calls = s.calls := rfl
@[simp] theorem setPlan_plan : (s.setPlan p).plan = p := rfl
@[simp] theorem setPlan_onError : (s.setPlan p).onError = s.onError := rfl
@[simp] theorem setPlan_outputs : (s.setPlan p).outputs = s.outputs := rfl

end

section
variable (s : State) (o : Output)

@[simp] theorem emit_v : (s.emit o).v = s.v := rfl
@[simp] theorem emit_i : (s.emit o).i = s.i := rfl
@[simp] theorem emit_pc : (s.emit o).pc = s.pc := rfl
@[simp] theorem emit_stack : (s.emit o).stack = s.stack := rfl
@[simp] theorem emit_dt : (s.emit o).dt = s.dt := rfl
@[simp] theorem emit_st : (s.emit o).st = s.st := rfl
@[simp] theorem emit_display : (s.emit o).display = s.display := rfl
@[simp] theorem emit_mode : (s.emit o).mode = s.mode := rfl
@[simp] theorem emit_lastKeys : (s.emit o).lastKeys = s.lastKeys := rfl
@[simp] theorem emit_mem : (s.emit o).mem = s.mem := rfl
@[simp] theorem emit_keys : (s.emit o).keys = s.keys := rfl
@[simp] theorem emit_loaded : (s.emit o).loaded = s.loaded := rfl
@[simp] theorem emit_cfg : (s.emit o).cfg = s.cfg := rfl
@[simp] theorem emit_rng : (s.emit o).rng = s.rng := rfl
@[simp] theorem emit_choices : (s.emit o).choices = s.choices := rfl
@[simp] theorem emit_calls : (s.emit o).calls = s.calls := rfl
@[simp] theorem emit_plan : (s.emit o).plan = s.plan := rfl
@[simp] theorem emit_onError : (s.emit o).onError = s.onError := rfl
@[simp] theorem emit_outputs : (s.emit o).outputs = s.outputs ++ [o] := rfl

end

section
variable (s : State)

@[simp] theorem skipWord_eq_setPc : s.skipWord = s.setPc (s.pc + 2) := rfl
@[simp] theorem drawRandom_eq_setRng : s.drawRandom = s.setRng s.rng.advance := rfl
@[simp] theorem takeChoice_eq_setChoices : s.takeChoice = s.setChoices s.choices.advance := rfl

end

section
variable (s : State) (a : Nat) (bs : List Byte)

@[simp] theorem writeBytes_v : (s.writeBytes a bs).v = s.v := rfl
@[simp] theorem writeBytes_i : (s.writeBytes a bs).i = s.i := rfl
@[simp] theorem writeBytes_pc : (s.writeBytes a bs).pc = s.pc := rfl
@[simp] theorem writeBytes_stack : (s.writeBytes a bs).stack = s.stack := rfl
@[simp] theorem writeBytes_dt : (s.writeBytes a bs).dt = s.dt := rfl
@[simp] theorem writeBytes_st : (s.writeBytes a bs).st = s.st := rfl
@[simp] theorem writeBytes_display : (s.writeBytes a bs).display = s.display := rfl
@[simp] theorem writeBytes_mode : (s.writeBytes a bs).mode = s.mode := rfl
@[simp] theorem writeBytes_lastKeys : (s.writeBytes a bs).lastKeys = s.lastKeys := rfl
@[simp] theorem writeBytes_mem : (s.writeBytes a bs).mem = Memory.writeBytes (resetByte s.cfg) a bs s.mem := rfl
@[simp] theorem writeBytes_keys : (s.writeBytes a bs).keys = s.keys := rfl
@[simp] theorem writeBytes_loaded : (s.writeBytes a bs).loaded = s.loaded := rfl
@[simp] theorem writeBytes_cfg : (s.writeBytes a bs).cfg = s.cfg := rfl
@[simp] theorem writeBytes_rng : (s.writeBytes a bs).rng = s.rng := rfl
@[simp] theorem writeBytes_choices : (s.writeBytes a bs).choices = s.choices := rfl
@[simp] theorem writeBytes_calls : (s.writeBytes a bs).calls = s.calls := rfl
@[simp] theorem writeBytes_plan : (s.writeBytes a bs).plan = s.plan := rfl
@[simp] theorem writeBytes_onError : (s.writeBytes a bs).onError = s.onError := rfl
@[simp] theorem writeBytes_outputs : (s.writeBytes a bs).outputs = s.outputs := rfl

end

section
variable (s : State) (c : Bool)

@[simp] theorem skipIf_v : (s.skipIf c).v = s.v := by cases c <;> rfl
@[simp] theorem skipIf_i : (s.skipIf c).i = s.i := by cases c <;> rfl
@[simp] theorem skipIf_pc : (s.skipIf c).pc = if c then s.pc + 2 else s.pc := by cases c <;> rfl
@[simp] theorem skipIf_stack : (s.skipIf c).stack = s.stack := by cases c <;> rfl
@[simp] theorem skipIf_dt : (s.skipIf c).dt = s.dt := by cases c <;> rfl
@[simp] theorem skipIf_st : (s.skipIf c).st = s.st := by cases c <;> rfl
@[simp] theorem skipIf_display : (s.skipIf c).display = s.display := by cases c <;> rfl
@[simp] theorem skipIf_mode : (s.skipIf c).mode = s.mode := by cases c <;> rfl
@[simp] theorem skipIf_lastKeys : (s.skipIf c).lastKeys = s.lastKeys := by cases c <;> rfl
@[simp] theorem skipIf_mem : (s.skipIf c).mem = s.mem := by cases c <;> rfl
@[simp] theorem skipIf_keys : (s.skipIf c).keys = s.keys := by cases c <;> rfl
@[simp] theorem skipIf_loaded : (s.skipIf c).loaded = s.loaded := by cases c <;> rfl
@[simp] theorem skipIf_cfg : (s.skipIf c).cfg = s.cfg := by cases c <;> rfl
@[simp] theorem skipIf_rng : (s.skipIf c).rng = s.rng := by cases c <;> rfl
@[simp] theorem skipIf_choices : (s.skipIf c).choices = s.choices := by cases c <;> rfl
@[simp] theorem skipIf_calls : (s.skipIf c).calls = s.calls := by cases c <;> rfl
@[simp] theorem skipIf_plan : (s.skipIf c).plan = s.plan := by cases c <;> rfl
@[simp] theorem skipIf_onError : (s.skipIf c).onError = s.onError := by cases c <;> rfl
@[simp] theorem skipIf_outputs : (s.skipIf c).outputs = s.outputs := by cases c <;> rfl

end

end Sys2Proof.Machine
end

