-- ==== Sys2Proof/Laws/Memory.lean ====
section
/-! SUPPORT. The laws of memory: read after write, the frame of a write, and the canonical form kept by every
operation. -/

namespace Sys2Proof.Machine

variable {base : Nat → Byte}

namespace Memory

theorem read_of_absent {a : Nat} {m : List Host.Cell} (h : ∀ c ∈ m, c.1 ≠ a) : read base a m = base a := by
  induction m with
  | nil => rfl
  | cons c m ih =>
    have hc : c.1 ≠ a := h c (List.mem_cons_self ..)
    simp only [read, if_neg hc]
    exact ih (fun d hd => h d (List.mem_cons_of_mem _ hd))

theorem read_erase_same (a : Nat) (m : List Host.Cell) : read base a (erase a m) = base a := by
  apply read_of_absent
  intro c hc
  simpa [erase] using (List.mem_filter.mp hc).2

theorem read_erase_other {a b : Nat} (h : b ≠ a) (m : List Host.Cell) :
    read base b (erase a m) = read base b m := by
  induction m with
  | nil => rfl
  | cons c m ih =>
    have ih : read base b (List.filter (fun c => c.1 != a) m) = read base b m := ih
    unfold erase
    by_cases hc : c.1 = a
    · have hb : c.1 ≠ b := fun e => h (e ▸ hc)
      simp [hc, read, ih, Ne.symm h]
    · simp only [List.filter, bne_iff_ne.mpr hc, read, ih]

theorem read_insert (a : Nat) (x : Byte) (b : Nat) (m : List Host.Cell) (ha : ∀ c ∈ m, c.1 ≠ a) :
    read base b (insert a x m) = if b = a then x else read base b m := by
  induction m with
  | nil => simp [insert, read, eq_comm]
  | cons c m ih =>
    have hc : c.1 ≠ a := ha c (List.mem_cons_self ..)
    have ih := ih (fun d hd => ha d (List.mem_cons_of_mem _ hd))
    unfold insert
    by_cases hlt : a < c.1
    · simp only [if_pos hlt, read]
      by_cases h : b = a
      · simp [h]
      · simp [h, Ne.symm h]
    · simp only [if_neg hlt, read, ih]
      by_cases h : b = a
      · subst h; simp [hc]
      · simp [h]

theorem absent_erase (a : Nat) (m : List Host.Cell) : ∀ c ∈ erase a m, c.1 ≠ a := by
  intro c hc
  simpa [erase] using (List.mem_filter.mp hc).2

/-- Read after write. -/
theorem read_write_same (a : Nat) (x : Byte) (m : List Host.Cell) : read base a (write base a x m) = x := by
  unfold write
  split
  · next h => rw [read_erase_same, h]
  · simp [read_insert _ _ _ _ (absent_erase a m)]

/-- A write leaves every other address alone. -/
theorem read_write_other {a b : Nat} (h : b ≠ a) (x : Byte) (m : List Host.Cell) :
    read base b (write base a x m) = read base b m := by
  unfold write
  split
  · exact read_erase_other h m
  · rw [read_insert _ _ _ _ (absent_erase a m), if_neg h, read_erase_other h]

/-- Bytes written from `a` on leave every address outside them alone. -/
theorem read_writeBytes_outside {b : Nat} (bs : List Byte) (a : Nat) (m : List Host.Cell)
    (h : b < a ∨ a + bs.length ≤ b) : read base b (writeBytes base a bs m) = read base b m := by
  induction bs generalizing a m with
  | nil => rfl
  | cons x bs ih =>
    have hl : (x :: bs).length = bs.length + 1 := rfl
    simp only [writeBytes]
    rw [ih (a + 1) _ (by omega), read_write_other (by omega)]

/-- Bytes written from `a` on read back. -/
theorem read_writeBytes_inside (bs : List Byte) (a k : Nat) (m : List Host.Cell) (h : k < bs.length) :
    read base (a + k) (writeBytes base a bs m) = bs[k] := by
  induction bs generalizing a k m with
  | nil => simp at h
  | cons x bs ih =>
    simp only [writeBytes]
    cases k with
    | zero => rw [read_writeBytes_outside _ _ _ (by omega)]; simp [read_write_same]
    | succ k =>
      have h' : k < bs.length := by simpa using h
      have := ih (a + 1) k (write base a x m) h'
      rw [show a + (k + 1) = a + 1 + k by omega, this]
      rfl

theorem wf_nil : wf base [] := ⟨List.Pairwise.nil, by simp⟩

theorem wf_erase (a : Nat) {m : List Host.Cell} (h : wf base m) : wf base (erase a m) :=
  ⟨h.1.filter _, fun c hc => h.2 c (List.mem_of_mem_filter hc)⟩

theorem mem_insert {a : Nat} {x : Byte} {m : List Host.Cell} {c : Host.Cell} (h : c ∈ insert a x m) :
    c = (a, x) ∨ c ∈ m := by
  induction m with
  | nil => simpa [insert] using h
  | cons d m ih =>
    unfold insert at h
    split at h
    · simpa using h
    · rcases List.mem_cons.mp h with rfl | h
      · exact .inr (List.mem_cons_self ..)
      · exact (ih h).imp_right (List.mem_cons_of_mem _)

theorem wf_insert {a : Nat} {x : Byte} {m : List Host.Cell} (h : wf base m) (ha : ∀ c ∈ m, c.1 ≠ a)
    (hle : a ≤ maxAddress) (hx : x ≠ base a) : wf base (insert a x m) := by
  refine ⟨?_, fun c hc => ?_⟩
  · obtain ⟨hp, -⟩ := h
    induction m with
    | nil => simp [insert]
    | cons d m ih =>
      have hd : d.1 ≠ a := ha d (List.mem_cons_self ..)
      have hrest := List.pairwise_cons.mp hp
      unfold insert
      split
      · next hlt =>
        refine List.pairwise_cons.mpr ⟨fun c hc => ?_, hp⟩
        rcases List.mem_cons.mp hc with rfl | hc
        · exact hlt
        · exact Nat.lt_trans hlt (hrest.1 c hc)
      · next hlt =>
        refine List.pairwise_cons.mpr ⟨fun c hc => ?_, ih (fun c hc => ha c (List.mem_cons_of_mem _ hc)) hrest.2⟩
        rcases mem_insert hc with rfl | hc
        · exact lt_of_le_of_ne (Nat.le_of_not_lt hlt) hd
        · exact hrest.1 c hc
  · rcases mem_insert hc with rfl | hc
    · exact ⟨hle, hx⟩
    · exact h.2 c hc

/-- A write inside memory keeps the canonical form. -/
theorem wf_write {a : Nat} (x : Byte) {m : List Host.Cell} (h : wf base m) (hle : a ≤ maxAddress) :
    wf base (write base a x m) := by
  unfold write
  split
  · exact wf_erase a h
  · next hx => exact wf_insert (wf_erase a h) (absent_erase a m) hle hx

/-- Bytes written inside memory keep the canonical form. -/
theorem wf_writeBytes (bs : List Byte) {a : Nat} {m : List Host.Cell} (h : wf base m)
    (hle : a + bs.length ≤ maxAddress + 1) : wf base (writeBytes base a bs m) := by
  induction bs generalizing a m with
  | nil => exact h
  | cons x bs ih =>
    have hl : (x :: bs).length = bs.length + 1 := rfl
    exact ih (wf_write x h (by omega)) (by omega)

end Memory

/-- Every address outside the bytes written reads as before. -/
theorem readByte_writeBytes_outside (s : State) {a b : Nat} {bs : List Byte} (h : b < a ∨ a + bs.length ≤ b) :
    (s.writeBytes a bs).readByte b = s.readByte b :=
  Memory.read_writeBytes_outside bs a s.mem h

/-- The bytes written read back. -/
theorem readByte_writeBytes_inside (s : State) {a k : Nat} {bs : List Byte} (h : k < bs.length) :
    (s.writeBytes a bs).readByte (a + k) = bs[k] :=
  Memory.read_writeBytes_inside bs a k s.mem h

/-- Two states with the same cells and the same parameters read the same. -/
theorem readByte_congr {s t : State} (hm : t.mem = s.mem) (hc : t.cfg = s.cfg) (a : Nat) :
    t.readByte a = s.readByte a := by
  simp [State.readByte, hm, hc]

end Sys2Proof.Machine
end

