-- ==== Sys2Proof/Laws/Ops.lean ====
section
/-! SUPPORT. One lemma for each shared operation over registers, the range check, the stack, skips, flags and
the key reads: what it can do, said once. -/

namespace Sys2Proof.Machine

/-- Register read after register write. -/
@[simp] theorem getV_setV (s : State) (x r : Reg) (b : Byte) :
    (s.setV x b).getV r = if r = x then b else s.getV r := by
  unfold State.getV
  by_cases h : r = x
  · subst h; simp
  · have : x.val ≠ r.val := fun e => h (Fin.ext e.symm)
    simp [h, this]

/-- A state is told by its fields other than V and by each register. -/
theorem onlyRegs_setV (s : State) (x : Reg) (b : Byte) : OnlyRegs [x] s (s.setV x b) :=
  ⟨rfl, fun r hr => by simp [List.mem_singleton.not.mp hr], fun _ => rfl⟩

/-- VF first, then Vx: Vx holds the result, VF the flag unless x is VF, all else as before (R200). -/
theorem setFlagThen_spec (s : State) (c : Bool) (x : Reg) (b : Byte) :
    (s.setFlagThen c x b).getV x = b ∧ (x ≠ VF → (s.setFlagThen c x b).getV VF = flagByte c) ∧
      OnlyRegs [x, VF] s (s.setFlagThen c x b) := by
  refine ⟨by simp [State.setFlagThen], fun h => by simp [State.setFlagThen, Ne.symm h], rfl, fun r hr => ?_,
    fun _ => rfl⟩
  simp only [List.mem_cons, List.not_mem_nil, or_false, not_or] at hr
  simp [State.setFlagThen, hr.1, hr.2]

/-- The range check passes exactly where every byte of the access is inside memory. -/
theorem badAddress_eq_none {a n : Nat} : badAddress a n = none ↔ ∀ k < n, a + k ≤ maxAddress := by
  unfold badAddress
  split
  · next h => simp only [true_iff]; intro k hk; omega
  · next h =>
    simp only [reduceCtorEq, false_iff, not_forall]
    exact ⟨n - 1, by omega, by omega⟩

/-- The range check names an address of the access above 4095, and none below it in the access is. -/
theorem badAddress_eq_some {a n e : Nat} (h : badAddress a n = some e) :
    a ≤ e ∧ e < a + n ∧ maxAddress < e ∧ ∀ b, a ≤ b → b < e → b ≤ maxAddress := by
  unfold badAddress at h
  split at h
  · exact absurd h (by simp)
  · next hn =>
    obtain rfl := Option.some.inj h
    refine ⟨by omega, by omega, by omega, fun b hb hlt => by omega⟩

theorem push_cases (s : State) (a : Word) :
    (s.stack.length < 16 ∧ s.push a = some (s.setStack (s.stack ++ [a]))) ∨
      (16 ≤ s.stack.length ∧ s.push a = none) := by
  unfold State.push stackCapacity
  split
  · exact .inl ⟨‹_›, rfl⟩
  · exact .inr ⟨by omega, rfl⟩

theorem pop_cases (s : State) :
    (s.stack = [] ∧ s.pop = none) ∨
      ∃ l a, s.stack = l ++ [a] ∧ s.pop = some (a, s.setStack l) := by
  unfold State.pop
  rcases List.eq_nil_or_concat s.stack with h | ⟨l, a, h⟩
  · exact .inl ⟨h, by simp [h]⟩
  · exact .inr ⟨l, a, by simpa using h, by simp [h]⟩

/-- Pop after push gives the pushed address and the stack as it was. -/
theorem pop_push {s t : State} {a : Word} (h : s.push a = some t) : t.pop = some (a, s) := by
  rcases push_cases s a with ⟨-, h'⟩ | ⟨-, h'⟩
  · rw [h] at h'
    obtain rfl := Option.some.inj h'
    simp [State.pop, State.setStack]
  · simp [h'] at h

theorem skipIf_eq (s : State) (c : Bool) : s.skipIf c = s.setPc (if c then s.pc + 2 else s.pc) := by
  cases c <;> rfl

theorem onlyPc_setPc (s : State) (w : Word) : OnlyPc s (s.setPc w) := ⟨rfl, fun _ => rfl⟩

theorem onlyI_setI (s : State) (w : Word) : OnlyI s (s.setI w) := ⟨rfl, fun _ => rfl⟩

/-- A key read changes nothing but the supply of free choices. -/
theorem keyDown_state (s : State) (v : Byte) : (s.keyDown v).2 = s.setChoices (s.keyDown v).2.choices := by
  unfold State.keyDown
  split
  · rfl
  · split <;> rfl

/-- The key read of a value in the port's domain: its level, and no free choice taken (R311). -/
theorem keyDown_of_le (s : State) {v : Byte} (h : v.toNat ≤ 15) :
    s.keyDown v = (keyBit s.keys v.toNat, s) := by
  simp [State.keyDown, h]

theorem snapshotKeys_eq (s : State) :
    s.snapshotKeys = s.setLastKeys (match s.cfg.keyWaitTrigger with | .level => s.lastKeys | .edge => s.keys) := by
  unfold State.snapshotKeys
  cases s.cfg.keyWaitTrigger <;> rfl

/-! ### The key wait -/

theorem mem_keysOf {q : KeyMap} {k : Nat} : k ∈ keysOf q ↔ k < 16 ∧ keyBit q k = true := by
  simp [keysOf]

/-- A key qualifies exactly where it is one of the qualifying set (R315). -/
theorem keyQualifies_iff {s : State} {k : Nat} : KeyQualifies s k ↔ k ∈ keysOf s.qualifyingKeys := by
  rw [mem_keysOf]
  unfold KeyQualifies State.qualifyingKeys keyBit
  cases s.cfg.keyWaitTrigger with
  | level => simp
  | edge =>
    refine and_congr_right fun hk => ?_
    simp [hk]

theorem keysOf_eq_nil {q : KeyMap} : keysOf q = [] ↔ q = 0 := by
  constructor
  · intro h
    apply BitVec.eq_of_getLsbD_eq
    intro k hk
    have : k ∉ keysOf q := by simp [h]
    simpa [mem_keysOf, hk, keyBit] using this
  · rintro rfl
    simp [keysOf, keyBit]

theorem qualifyingKeys_eq_zero {s : State} : s.qualifyingKeys = 0 ↔ ∀ k, ¬ KeyQualifies s k := by
  simp only [← keysOf_eq_nil, keyQualifies_iff, List.eq_nil_iff_forall_not_mem]

theorem freeKeyOf_mem {q : KeyMap} (h : q ≠ 0) : freeKeyOf q ∈ keysOf q := by
  have hne : keysOf q ≠ [] := fun e => h (keysOf_eq_nil.mp e)
  unfold freeKeyOf
  split
  · next k hk => simp [hk]
  · have hlt := Nat.mod_lt (Config.freePick q).toNat (List.length_pos_iff.mpr hne)
    rw [List.getD_eq_getElem _ _ hlt]
    exact List.getElem_mem hlt

/-- The key picked is one of the set (R145). -/
theorem pickKey_mem (c : Config) {q : KeyMap} (h : q ≠ 0) : pickKey c q ∈ keysOf q := by
  unfold pickKey
  split
  · next k _ =>
    split
    · exact mem_keysOf.mpr ⟨k.isLt, ‹_›⟩
    · exact freeKeyOf_mem h
  · exact freeKeyOf_mem h

/-- A key of the set that the table lists for it is the one picked. -/
theorem pickKey_of_listed {c : Config} {q : KeyMap} {k : Reg} (h : c.pickKey.lookup q = some k)
    (hk : keyBit q k.val = true) : pickKey c q = k.val := by
  simp [pickKey, h, hk]

/-! ### The host's next call -/

section
variable (s : State)

/-- The next call depends on the queue and the plan alone. -/
theorem takeCall_fst_congr {s t : State} (hc : t.calls = s.calls) (hp : t.plan = s.plan) :
    t.takeCall.1 = s.takeCall.1 := by
  unfold State.takeCall
  rw [hc, hp]
  cases s.calls with
  | cons => rfl
  | nil => cases s.plan <;> rfl

theorem stepIsNext_congr {s t : State} (hc : t.calls = s.calls) (hp : t.plan = s.plan) :
    StepIsNext t ↔ StepIsNext s := by
  unfold StepIsNext
  rw [takeCall_fst_congr hc hp]

/-- Making a call touches nothing but the queue and the plan. -/
theorem takeCall_eq : s.takeCall.2 = { s with calls := s.takeCall.2.calls, plan := s.takeCall.2.plan } := by
  unfold State.takeCall
  split
  · rfl
  · split <;> rfl

theorem takeCall_of_queued {c : HostCall} {rest : List HostCall} (h : s.calls = c :: rest) :
    s.takeCall = (c, s.setCalls rest) := by
  simp [State.takeCall, h]

@[simp] theorem takeCall_v : s.takeCall.2.v = s.v := by rw [takeCall_eq]
@[simp] theorem takeCall_i : s.takeCall.2.i = s.i := by rw [takeCall_eq]
@[simp] theorem takeCall_pc : s.takeCall.2.pc = s.pc := by rw [takeCall_eq]
@[simp] theorem takeCall_stack : s.takeCall.2.stack = s.stack := by rw [takeCall_eq]
@[simp] theorem takeCall_dt : s.takeCall.2.dt = s.dt := by rw [takeCall_eq]
@[simp] theorem takeCall_st : s.takeCall.2.st = s.st := by rw [takeCall_eq]
@[simp] theorem takeCall_display : s.takeCall.2.display = s.display := by rw [takeCall_eq]
@[simp] theorem takeCall_mode : s.takeCall.2.mode = s.mode := by rw [takeCall_eq]
@[simp] theorem takeCall_lastKeys : s.takeCall.2.lastKeys = s.lastKeys := by rw [takeCall_eq]
@[simp] theorem takeCall_mem : s.takeCall.2.mem = s.mem := by rw [takeCall_eq]
@[simp] theorem takeCall_keys : s.takeCall.2.keys = s.keys := by rw [takeCall_eq]
@[simp] theorem takeCall_loaded : s.takeCall.2.loaded = s.loaded := by rw [takeCall_eq]
@[simp] theorem takeCall_cfg : s.takeCall.2.cfg = s.cfg := by rw [takeCall_eq]
@[simp] theorem takeCall_rng : s.takeCall.2.rng = s.rng := by rw [takeCall_eq]
@[simp] theorem takeCall_choices : s.takeCall.2.choices = s.choices := by rw [takeCall_eq]
@[simp] theorem takeCall_onError : s.takeCall.2.onError = s.onError := by rw [takeCall_eq]
@[simp] theorem takeCall_outputs : s.takeCall.2.outputs = s.outputs := by rw [takeCall_eq]

@[simp] theorem takeCall_getV (r : Reg) : s.takeCall.2.getV r = s.getV r := by simp [State.getV]
@[simp] theorem takeCall_readByte (a : Nat) : s.takeCall.2.readByte a = s.readByte a := by simp [State.readByte]
@[simp] theorem takeCall_base : s.takeCall.2.base = s.base := by simp [State.base]
@[simp] theorem takeCall_fetchWord : s.takeCall.2.fetchWord = s.fetchWord := by simp [State.fetchWord]

end

end Sys2Proof.Machine
end

