-- ==== Sys2Proof/Laws/Exec.lean ====
section
/-! SUPPORT. The meanings that can stop, inverted once: what a next state of each must be. Every other meaning is
one equation that holds by definition. -/

namespace Sys2Proof.Machine

variable {s t : State}

/-- A RET that runs has popped the latest return address. -/
theorem execRet_next (h : execRet s = .next t) : ∃ l a, s.stack = l ++ [a] ∧ t = (s.setStack l).setPc a := by
  unfold execRet at h
  rcases pop_cases s with ⟨-, hp⟩ | ⟨l, a, hs, hp⟩ <;> rw [hp] at h <;> cases h
  exact ⟨l, a, hs, rfl⟩

/-- A CALL that runs had room on the stack and has pushed PC. -/
theorem execCall_next {nnn : Addr12} (h : execCall nnn s = .next t) :
    s.stack.length < 16 ∧ t = (s.setStack (s.stack ++ [s.pc])).setPc (zextAddr nnn) := by
  unfold execCall at h
  rcases push_cases s s.pc with ⟨hl, hp⟩ | ⟨-, hp⟩ <;> rw [hp] at h <;> cases h
  exact ⟨hl, rfl⟩

/-- An LD B that runs has stored three digits inside memory. -/
theorem execLdB_next {x : Reg} (h : execLdB x s = .next t) :
    badAddress s.base 3 = none ∧ t = s.writeBytes s.base (bcdDigits (s.getV x)) := by
  unfold execLdB at h
  split at h <;> cases h
  exact ⟨‹_›, rfl⟩

/-- An LD [I],Vx that runs has stored V0 to Vx inside memory. -/
theorem execStoreRegs_next {x : Reg} (h : execStoreRegs x s = .next t) :
    badAddress s.base (x.val + 1) = none ∧
      t = (s.writeBytes s.base (s.regsUpTo x)).setI (BitVec.ofNat 16 (s.base + x.val + 1)) := by
  unfold execStoreRegs at h
  split at h <;> cases h
  exact ⟨‹_›, rfl⟩

/-- An LD Vx,[I] that runs has loaded V0 to Vx from inside memory. -/
theorem execLoadRegs_next {x : Reg} (h : execLoadRegs x s = .next t) :
    badAddress s.base (x.val + 1) = none ∧
      t = (s.setRegs (loadInto s.v 0 (s.readBytes s.base (x.val + 1)))).setI
        (BitVec.ofNat 16 (s.base + x.val + 1)) := by
  unfold execLoadRegs at h
  split at h <;> cases h
  exact ⟨‹_›, rfl⟩

/-- A DRW that runs has read its sprite inside memory and toggled its pixels. -/
theorem execDrw_next {x y : Reg} {n : Nibble} (h : execDrw x y n s = .next t) :
    badAddress s.base n.toNat = none ∧
      t = ((s.setDisplay (xorPixels (s.drawPixels x y n) s.display).1).setV VF
        (flagByte (xorPixels (s.drawPixels x y n) s.display).2)).emit .present := by
  unfold execDrw at h
  split at h <;> cases h
  exact ⟨‹_›, rfl⟩

/-! ### The registers a load fills and a store reads -/

theorem getElem_loadInto (bs : List Byte) (v : RegFile) (k : Nat) (r : Nat) (hr : r < 16) :
    (loadInto v k bs)[r] = if k ≤ r ∧ r < k + bs.length then bs.getD (r - k) 0 else v[r] := by
  induction bs generalizing v k with
  | nil => simp [loadInto]
  | cons b bs ih =>
    simp only [loadInto, ih, Vector.getElem_setIfInBounds, List.length_cons]
    by_cases h1 : k + 1 ≤ r ∧ r < k + 1 + bs.length
    · have h2 : k ≤ r ∧ r < k + (bs.length + 1) := by omega
      rw [if_pos h1, if_pos h2, show r - k = (r - (k + 1)) + 1 by omega, List.getD_cons_succ]
    · rw [if_neg h1]
      by_cases h3 : k = r
      · subst h3; simp
      · rw [if_neg h3, if_neg (by omega)]

@[simp] theorem length_regsUpTo (s : State) (x : Reg) : (s.regsUpTo x).length = x.val + 1 := by
  simp [State.regsUpTo]

theorem getElem_regsUpTo (s : State) (x : Reg) (k : Nat) (h : k < (s.regsUpTo x).length) :
    (s.regsUpTo x)[k] = s.getV ⟨k, by rw [length_regsUpTo] at h; omega⟩ := by
  simp [State.regsUpTo, State.getV]

@[simp] theorem length_readBytes (s : State) (a n : Nat) : (s.readBytes a n).length = n := by
  simp [State.readBytes]

theorem getElem_readBytes (s : State) (a n k : Nat) (h : k < (s.readBytes a n).length) :
    (s.readBytes a n)[k] = s.readByte (a + k) := by
  simp [State.readBytes]

/-! ### The drawing engine -/

@[simp] theorem pixelAt_clearDisplay (p : Pixel) : pixelAt clearDisplay p = false := by
  simp [pixelAt, clearDisplay]

/-- Two buffers with the same pixels are the same. -/
theorem display_ext {d e : Display} (h : ∀ p, pixelAt d p = pixelAt e p) : d = e := by
  apply Vector.ext
  intro y hy
  apply BitVec.eq_of_getLsbD_eq
  intro x hx
  exact h (⟨x, hx⟩, ⟨y, hy⟩)

/-- `xorPixel` toggles its pixel and no other, and gives back the old value (R281). -/
theorem pixelAt_xorPixel (d : Display) (p q : Pixel) :
    pixelAt (xorPixel d p).1 q = if q = p then !pixelAt d q else pixelAt d q := by
  obtain ⟨px, py⟩ := p
  obtain ⟨qx, qy⟩ := q
  simp only [pixelAt, xorPixel, Vector.getElem_set, Prod.mk.injEq]
  by_cases hy : qy = py
  · subst hy
    by_cases hx : qx = px
    · subst hx; simp
    · have : ¬ qx.val = px.val := fun e => hx (Fin.ext e)
      simp [hx, this]
  · have : ¬ py.val = qy.val := fun e => hy (Fin.ext e.symm)
    simp [hy, this]

/-- Toggling different pixels toggles each of them once, and collides where one of them was set (R283, R285). -/
theorem xorPixels_spec {ps : List Pixel} (hp : ps.Nodup) (d : Display) :
    (∀ q, pixelAt (xorPixels ps d).1 q = if q ∈ ps then !pixelAt d q else pixelAt d q) ∧
      ((xorPixels ps d).2 = true ↔ ∃ q ∈ ps, pixelAt d q = true) := by
  induction ps generalizing d with
  | nil => simp [xorPixels]
  | cons p ps ih =>
    obtain ⟨hnot, hps⟩ := List.nodup_cons.mp hp
    obtain ⟨h1, h2⟩ := ih hps (xorPixel d p).1
    have hpix : ∀ q ∈ ps, pixelAt (xorPixel d p).1 q = pixelAt d q := by
      intro q hq
      rw [pixelAt_xorPixel, if_neg (fun e : q = p => hnot (e ▸ hq))]
    refine ⟨fun q => ?_, ?_⟩
    · simp only [xorPixels, h1, pixelAt_xorPixel, List.mem_cons]
      by_cases hq : q = p
      · subst hq; simp [hnot]
      · simp [hq]
    · simp only [xorPixels, Bool.or_eq_true, h2, List.mem_cons, exists_eq_or_imp]
      refine or_congr Iff.rfl ⟨fun ⟨q, hq, h⟩ => ⟨q, hq, (hpix q hq).symm.trans h⟩, fun ⟨q, hq, h⟩ => ⟨q, hq, ?_⟩⟩
      rw [hpix q hq, h]

theorem mem_rowPixels {x0 y : Nat} {row : Byte} {p : Pixel} :
    p ∈ rowPixels x0 y row ↔
      ∃ b < 8, row.getLsbD (7 - b) = true ∧ p.1.val = (x0 + b) % 64 ∧ p.2.val = y % 32 := by
  simp only [rowPixels, List.mem_map, List.mem_filter, List.mem_range, and_assoc]
  refine exists_congr fun b => and_congr_right fun _ => and_congr_right fun _ => ⟨?_, fun ⟨h1, h2⟩ => ?_⟩
  · rintro rfl; exact ⟨rfl, rfl⟩
  · exact Prod.ext (Fin.ext h1.symm) (Fin.ext h2.symm)

/-- The pixels of a sprite are those its 1 bits land on (R284). -/
theorem mem_spritePixels {x0 y0 : Nat} {rows : List Byte} {p : Pixel} :
    p ∈ spritePixels x0 y0 rows ↔
      ∃ k, ∃ h : k < rows.length, ∃ b < 8, (rows[k]).getLsbD (7 - b) = true ∧
        p.1.val = (x0 + b) % 64 ∧ p.2.val = (y0 + k) % 32 := by
  induction rows generalizing y0 with
  | nil => simp [spritePixels]
  | cons row rows ih =>
    simp only [spritePixels, List.mem_append, mem_rowPixels, ih]
    constructor
    · rintro (h | ⟨k, hk, h⟩)
      · exact ⟨0, by simp, h⟩
      · exact ⟨k + 1, by simpa using hk, by simpa [Nat.add_assoc, Nat.add_comm 1] using h⟩
    · rintro ⟨k, hk, h⟩
      cases k with
      | zero => exact .inl h
      | succ k => exact .inr ⟨k, by simpa using hk, by simpa [Nat.add_assoc, Nat.add_comm 1] using h⟩

theorem nodup_rowPixels (x0 y : Nat) (row : Byte) : (rowPixels x0 y row).Nodup := by
  refine List.Nodup.map_on ?_ (List.nodup_range.filter _)
  intro a ha b hb h
  have ha := List.mem_range.mp (List.mem_filter.mp ha).1
  have hb := List.mem_range.mp (List.mem_filter.mp hb).1
  have h := congrArg (fun p : Pixel => p.1.val) h
  simp only [Fin.ofNat] at h
  omega

/-- No pixel is toggled twice by a sprite of at most 32 rows (R283). -/
theorem nodup_spritePixels (x0 y0 : Nat) {rows : List Byte} (h : rows.length ≤ 32) :
    (spritePixels x0 y0 rows).Nodup := by
  induction rows generalizing y0 with
  | nil => simp [spritePixels]
  | cons row rows ih =>
    simp only [List.length_cons] at h
    refine List.nodup_append.mpr ⟨nodup_rowPixels x0 y0 row, ih (y0 + 1) (by omega), ?_⟩
    rintro p hp q hq rfl
    obtain ⟨b, -, -, -, h1⟩ := mem_rowPixels.mp hp
    obtain ⟨k, hk, c, -, -, -, h2⟩ := mem_spritePixels.mp hq
    omega

/-- The pixels a DRW toggles are those a 1 bit of its sprite lands on (R283, R284). -/
theorem mem_drawPixels {x y : Reg} {n : Nibble} {p : Pixel} : p ∈ s.drawPixels x y n ↔ Hits s x y n p := by
  unfold State.drawPixels Hits
  rw [mem_spritePixels]
  simp only [length_readBytes, getElem_readBytes, exists_prop]

theorem nodup_drawPixels (s : State) (x y : Reg) (n : Nibble) : (s.drawPixels x y n).Nodup := by
  have := n.isLt
  exact nodup_spritePixels _ _ (by rw [length_readBytes]; omega)

end Sys2Proof.Machine
end

