-- ==== Sys2Proof/Laws/PerInstr.lean ====
section
/-! SUPPORT. Laws stated of every instruction as syntax, one lemma for each constructor. -/

/-- The encoder's word of an instruction decodes to it, with every operand as given, and selects its row of the
opcode map (R108, R111). -/
def Sys2Proof.Laws.RoundTrip.Statement (i : Sys2Proof.Instr) : Prop :=
  Sys2Proof.decode (Sys2Proof.encode i) = .instr i ∧
    (Sys2Proof.rowOf i).selectedBy (Sys2Proof.encode i) = true

namespace Sys2Proof.Laws.RoundTrip

open Sys2Proof

/-- The row comes with the decoding. -/
theorem of_decode {i : Instr} (h : decode (encode i) = .instr i) : Statement i := ⟨h, selectedBy_of_decode h⟩

theorem cls : Statement .cls := of_decode (by simp [encode, decode, decodeClass0])
theorem ret : Statement .ret := of_decode (by simp [encode, decode, decodeClass0])
theorem jp (nnn : Addr12) : Statement (.jp nnn) := of_decode (by simp [encode, decode])
theorem call (nnn : Addr12) : Statement (.call nnn) := of_decode (by simp [encode, decode])
theorem seImm (x : Reg) (kk : Byte) : Statement (.seImm x kk) := of_decode (by simp [encode, decode])
theorem sneImm (x : Reg) (kk : Byte) : Statement (.sneImm x kk) := of_decode (by simp [encode, decode])
theorem seReg (x y : Reg) : Statement (.seReg x y) := of_decode (by simp [encode, decode])
theorem ldImm (x : Reg) (kk : Byte) : Statement (.ldImm x kk) := of_decode (by simp [encode, decode])
theorem addImm (x : Reg) (kk : Byte) : Statement (.addImm x kk) := of_decode (by simp [encode, decode])
theorem ldReg (x y : Reg) : Statement (.ldReg x y) := of_decode (by simp [encode, decode, decodeClass8])
theorem orReg (x y : Reg) : Statement (.orReg x y) := of_decode (by simp [encode, decode, decodeClass8])
theorem andReg (x y : Reg) : Statement (.andReg x y) := of_decode (by simp [encode, decode, decodeClass8])
theorem xorReg (x y : Reg) : Statement (.xorReg x y) := of_decode (by simp [encode, decode, decodeClass8])
theorem addReg (x y : Reg) : Statement (.addReg x y) := of_decode (by simp [encode, decode, decodeClass8])
theorem sub (x y : Reg) : Statement (.sub x y) := of_decode (by simp [encode, decode, decodeClass8])
theorem shr (x y : Reg) : Statement (.shr x y) := of_decode (by simp [encode, decode, decodeClass8])
theorem subn (x y : Reg) : Statement (.subn x y) := of_decode (by simp [encode, decode, decodeClass8])
theorem shl (x y : Reg) : Statement (.shl x y) := of_decode (by simp [encode, decode, decodeClass8])
theorem sneReg (x y : Reg) : Statement (.sneReg x y) := of_decode (by simp [encode, decode])
theorem ldI (nnn : Addr12) : Statement (.ldI nnn) := of_decode (by simp [encode, decode])
theorem jpV0 (nnn : Addr12) : Statement (.jpV0 nnn) := of_decode (by simp [encode, decode])
theorem rnd (x : Reg) (kk : Byte) : Statement (.rnd x kk) := of_decode (by simp [encode, decode])
theorem drw (x y : Reg) (n : Nibble) : Statement (.drw x y n) := of_decode (by simp [encode, decode])
theorem skp (x : Reg) : Statement (.skp x) := of_decode (by simp [encode, decode, decodeClassE])
theorem sknp (x : Reg) : Statement (.sknp x) := of_decode (by simp [encode, decode, decodeClassE])
theorem ldVxDT (x : Reg) : Statement (.ldVxDT x) := of_decode (by simp [encode, decode, decodeClassF])
theorem ldVxK (x : Reg) : Statement (.ldVxK x) := of_decode (by simp [encode, decode, decodeClassF])
theorem ldDTVx (x : Reg) : Statement (.ldDTVx x) := of_decode (by simp [encode, decode, decodeClassF])
theorem ldSTVx (x : Reg) : Statement (.ldSTVx x) := of_decode (by simp [encode, decode, decodeClassF])
theorem addI (x : Reg) : Statement (.addI x) := of_decode (by simp [encode, decode, decodeClassF])
theorem ldF (x : Reg) : Statement (.ldF x) := of_decode (by simp [encode, decode, decodeClassF])
theorem ldB (x : Reg) : Statement (.ldB x) := of_decode (by simp [encode, decode, decodeClassF])
theorem storeRegs (x : Reg) : Statement (.storeRegs x) := of_decode (by simp [encode, decode, decodeClassF])
theorem loadRegs (x : Reg) : Statement (.loadRegs x) := of_decode (by simp [encode, decode, decodeClassF])

end Sys2Proof.Laws.RoundTrip
end

