-- ==== Sys2Proof/Laws/Step.lean ====
section
/-! SUPPORT. Inversion of exec and of the step: everything a call that answers a next state can have done. -/

namespace Sys2Proof.Machine

variable {s t : State}

/-- No instruction touches the key map, the load record, the parameters or the host's queue (R42, R47, R364). -/
theorem exec_keeps {i : Instr} (h : exec i s = .next t) :
    t.keys = s.keys ∧ t.loaded = s.loaded ∧ t.cfg = s.cfg ∧ t.calls = s.calls ∧ t.plan = s.plan ∧
      t.onError = s.onError := by
  cases i
  case ret => obtain ⟨l, a, -, rfl⟩ := execRet_next h; simp
  case call => obtain ⟨-, rfl⟩ := execCall_next h; simp
  case ldB => obtain ⟨-, rfl⟩ := execLdB_next h; simp
  case storeRegs => obtain ⟨-, rfl⟩ := execStoreRegs_next h; simp
  case loadRegs => obtain ⟨-, rfl⟩ := execLoadRegs_next h; simp
  case drw => obtain ⟨-, rfl⟩ := execDrw_next h; simp
  case skp x => cases h; rw [keyDown_state]; simp
  case sknp x => cases h; rw [keyDown_state]; simp
  case ldVxK => cases h; simp [snapshotKeys_eq]
  all_goals cases h; simp [State.setFlagThen]

/-- What an await step may write: V, the snapshot, and the mode, to Running (R145). -/
theorem awaitStep_eq (r : Reg) (s : State) :
    awaitStep r s = { s with
      v := (awaitStep r s).v, lastKeys := (awaitStep r s).lastKeys, mode := (awaitStep r s).mode } ∧
    ((awaitStep r s).mode = .running ∨ (awaitStep r s).mode = s.mode) := by
  unfold awaitStep
  split
  · rw [snapshotKeys_eq]; exact ⟨rfl, .inr rfl⟩
  · exact ⟨rfl, .inl rfl⟩

/-- A `step()` that goes on is an await step, an instruction run at PC + 2, or an unknown word skipped. -/
theorem stepCall_next (h : stepCall s = .next t) :
    s.loaded = true ∧
      ((∃ r, s.mode = .awaitingKey r ∧ t = awaitStep r s) ∨
        (s.mode = .running ∧ s.pc.toNat ≤ 4094 ∧
          ((∃ i, decode s.fetchWord = .instr i ∧ exec i (s.setPc (s.pc + 2)) = .next t) ∨
            (∃ w, decode s.fetchWord = .unknown w ∧ s.cfg.unknownOpcodePolicy = .skip ∧
              t = (s.setPc (s.pc + 2)).emit (.error (.unknownOpcode w)))))) := by
  unfold stepCall at h
  split at h
  · refine ⟨‹_›, ?_⟩
    split at h
    · next hm =>
      refine .inr ⟨hm, ?_⟩
      unfold runningStep at h
      split at h
      · cases h
      · next hb =>
        have hpc := badAddress_eq_none.mp hb 1 (by omega)
        unfold maxAddress at hpc
        refine ⟨by omega, ?_⟩
        split at h
        · next w hd =>
          unfold unknownStep at h
          split at h <;> cases h
          exact .inr ⟨w, hd, ‹_›, rfl⟩
        · next i hd => exact .inl ⟨i, hd, h⟩
    · cases h; exact .inl ⟨_, ‹_›, rfl⟩
  · cases h

/-- What becomes of a call's answer: a next state stands, and an error goes on only to a host that goes on. -/
theorem react_next {r : Result} (h : react s r = .next t) :
    r = .next t ∨ ∃ e, r = .fault e ∧ s.onError = .goOn ∧ t = s.emit (.error e) := by
  cases r with
  | next u => exact .inl h
  | fault e =>
    unfold react at h
    dsimp only at h
    split at h <;> cases h
    exact .inr ⟨e, rfl, ‹_›, rfl⟩
  | refused q => cases h

/-- A machine step that goes on is a `step()`, one whose error the host passes over, a tick, a load that fits, a load
that does not, or a change of the key map. -/
theorem step_next (h : step s = .next t) :
    match s.takeCall.1 with
    | .step => stepCall s.takeCall.2 = .next t ∨
        ∃ e, stepCall s.takeCall.2 = .fault e ∧ s.onError = .goOn ∧ t = s.takeCall.2.emit (.error e)
    | .tick => t = tick s.takeCall.2
    | .load image =>
      (image.length ≤ 3584 ∧ t = resetWith image s.takeCall.2) ∨
        (3584 < image.length ∧ t = s.takeCall.2.emit (.error (.programTooLarge image.length)))
    | .setKeys k => t = s.takeCall.2.setKeys k := by
  have h := react_next (h : react s.takeCall.2 (call s.takeCall.1 s.takeCall.2) = .next t)
  rw [takeCall_onError] at h
  cases hc : s.takeCall.1 with
  | step => rw [hc] at h; exact h
  | tick =>
    rw [hc] at h
    rcases h with h | ⟨e, h, -⟩ <;> cases h
    rfl
  | setKeys k =>
    rw [hc] at h
    rcases h with h | ⟨e, h, -⟩ <;> cases h
    rfl
  | load image =>
    rw [hc] at h
    simp only [call, load, imageFits, maxImageLength] at h
    by_cases hl : image.length ≤ 3584
    · simp only [hl, decide_true, if_true] at h
      rcases h with h | ⟨e, h, -⟩ <;> cases h
      exact .inl ⟨hl, rfl⟩
    · simp only [hl, decide_false, Bool.false_eq_true, if_false] at h
      rcases h with h | ⟨e, h, -⟩ <;> cases h
      exact .inr ⟨by omega, rfl⟩

/-- No `step()` touches the queue, the plan, the host's reaction or the load record. -/
theorem stepCall_keeps (h : stepCall s = .next t) :
    t.calls = s.calls ∧ t.plan = s.plan ∧ t.onError = s.onError ∧ t.loaded = s.loaded := by
  rcases (stepCall_next h).2 with ⟨r, -, rfl⟩ | ⟨-, -, ⟨i, -, h⟩ | ⟨w, -, -, rfl⟩⟩
  · rw [(awaitStep_eq r s).1]; exact ⟨rfl, rfl, rfl, rfl⟩
  · obtain ⟨-, hl, -, hc, hp, ho⟩ := exec_keeps h
    exact ⟨hc, hp, ho, hl⟩
  · exact ⟨rfl, rfl, rfl, rfl⟩

/-- A machine step takes its call off the queue or the plan, and touches neither otherwise; the host's reaction
stays, and a loaded block stays loaded. -/
theorem step_keeps (h : step s = .next t) :
    t.calls = s.takeCall.2.calls ∧ t.plan = s.takeCall.2.plan ∧ t.onError = s.onError ∧
      (s.loaded = true → t.loaded = true) := by
  have h := step_next h
  cases hc : s.takeCall.1 <;> rw [hc] at h <;> dsimp only at h
  · rcases h with h | ⟨e, -, -, rfl⟩
    · obtain ⟨h1, h2, h3, h4⟩ := stepCall_keeps h
      exact ⟨h1, h2, by simpa using h3, fun hl => by simpa [hl] using h4⟩
    · simp
  · subst h; simp [tick]
  · rcases h with ⟨-, rfl⟩ | ⟨-, rfl⟩ <;> simp [resetWith]
  · subst h; simp

/-- Where `step()` is the next call, the machine step is what becomes of its answer. -/
theorem step_of_stepIsNext (h : StepIsNext s) : step s = react s.takeCall.2 (stepCall s.takeCall.2) := by
  have h : s.takeCall.1 = .step := h
  simp [step, nextCall, h, call]

/-- Where a `step()` in Running mode of a loaded block is next, the machine step is what becomes of a running
step's answer. -/
theorem step_of_ready (h : Ready s) : step s = react s.takeCall.2 (runningStep s.takeCall.2) := by
  rw [step_of_stepIsNext h.2.2]
  simp [stepCall, h.1, h.2.1]

/-- A `step()` that answers an error returns it, the block as it was. -/
theorem returnsError_of_stepCall {e : Fault} (h : StepIsNext s) (he : stepCall s.takeCall.2 = .fault e) :
    ReturnsError s e := by
  have hs : step s = react s.takeCall.2 (.fault e) := by rw [step_of_stepIsNext h, he]
  unfold ReturnsError
  rw [hs]
  unfold react
  rw [takeCall_onError]
  cases s.onError with
  | stop => exact ⟨rfl, fun _ => ⟨rfl, rfl⟩, fun h => absurd h (by decide)⟩
  | goOn => exact ⟨by simp [reply], fun h => absurd h (by decide), fun _ => ⟨_, rfl, rfl⟩⟩

/-- A running step whose two bytes lie in memory and decode to an instruction runs it (R141, R143). -/
theorem runningStep_of_decode {i : Instr} (hp : s.pc.toNat ≤ 4094) (h : decode s.fetchWord = .instr i) :
    runningStep s = exec i (s.setPc (s.pc + 2)) := by
  have hb : badAddress s.pc.toNat 2 = none :=
    badAddress_eq_none.mpr (fun k hk => by unfold maxAddress; omega)
  simp [runningStep, hb, h]

end Sys2Proof.Machine
end

