-- ==== Sys2Proof/Tests/Slice0.lean ====
section
/-! SUPPORT. The model's own tests. Every expected result is a vector of spec/95_test_vectors.md, named in the
comment, or worked out by hand from the rule named. -/

namespace Sys2Proof.Tests

open Sys2Proof.Machine

/-- The field `f` of the state that one step running the word `w` gives. -/
def after {α : Type} (s : State) (w : Nat) (f : State → α) : Option α :=
  match step (s.withFetchWord 16 w) with
  | .next t => some (f t)
  | _ => none

/-- The error that one step running the word `w` stops at. -/
def stops (s : State) (w : Nat) : Option Fault :=
  match step (s.withFetchWord 16 w) with
  | .fault e => some e
  | _ => none

/-- The field `f` of the state one machine step gives. -/
def afterStep {α : Type} (s : State) (f : State → α) : Option α :=
  match step s with
  | .next t => some (f t)
  | _ => none

/-- The reset state with V1 and V2 set. -/
def regs12 (a b : Byte) : State := (State.reset.setV 1 a).setV 2 b

/-- The reset state with I set. -/
def withI (i : Word) : State := State.reset.setI i

/-- The reset state under another choice of the open policies. -/
def under (u : UnknownOpcodePolicy) (t : KeyWaitTrigger) (k : KeyIndexPolicy) : State :=
  { State.reset with
    cfg := { Config.standard with unknownOpcodePolicy := u, keyWaitTrigger := t, keyIndexPolicy := k } }

def v1vf (s : State) : Byte × Byte := (s.getV 1, s.getV VF)

/-! ### Well-formedness: each check refuses an ill-formed term -/

/-- DEC-7 -/
theorem test_wordKnown_refuses_class0 : wordKnown 0x0123 = false := by decide
/-- DEC-12 -/
theorem test_wordKnown_refuses_class8 : wordKnown 0x8008 = false := by decide
/-- DEC-17 -/
theorem test_wordKnown_refuses_classE : wordKnown 0xE09F = false := by decide
/-- DEC-18 -/
theorem test_wordKnown_refuses_classF : wordKnown 0xF0FF = false := by decide
theorem imageFits_replicate (n : Nat) (b : Byte) : imageFits (List.replicate n b) = decide (n ≤ 3584) := by
  simp [imageFits, maxImageLength]

/-- LR-2 -/
theorem test_imageFits_refuses_3585 : imageFits (List.replicate 3585 0) = false := imageFits_replicate 3585 0
/-- LR-1 -/
theorem test_imageFits_3584 : imageFits (List.replicate 3584 0) = true := imageFits_replicate 3584 0

/-! ### Decoding: words written out bit by bit from the patterns of R108 -/

theorem test_decode_cls : decode 0b0000000011100000 = .instr .cls := by decide
/-- DEC-3: bits 11:8 are ignored -/
theorem test_decode_cls_ignored : decode 0x01E0 = .instr .cls := by decide
theorem test_decode_ret : decode 0b0000000011101110 = .instr .ret := by decide
theorem test_decode_jp : decode 0b0001101010111100 = .instr (.jp 0xABC) := by decide
theorem test_decode_call : decode 0b0010001100000000 = .instr (.call 0x300) := by decide
theorem test_decode_seImm : decode 0b0011001100010000 = .instr (.seImm 3 0x10) := by decide
theorem test_decode_sneImm : decode 0b0100001100010001 = .instr (.sneImm 3 0x11) := by decide
/-- DEC-10: bits 3:0 are ignored -/
theorem test_decode_seReg : decode 0b0101000100100001 = .instr (.seReg 1 2) := by decide
theorem test_decode_ldImm : decode 0b0110101010011101 = .instr (.ldImm 0xA 0x9D) := by decide
theorem test_decode_addImm : decode 0b0111000100000010 = .instr (.addImm 1 2) := by decide
theorem test_decode_ldReg : decode 0b1000000100100000 = .instr (.ldReg 1 2) := by decide
theorem test_decode_orReg : decode 0b1000000100100001 = .instr (.orReg 1 2) := by decide
theorem test_decode_andReg : decode 0b1000000100100010 = .instr (.andReg 1 2) := by decide
theorem test_decode_xorReg : decode 0b1000000100100011 = .instr (.xorReg 1 2) := by decide
theorem test_decode_addReg : decode 0b1000000100100100 = .instr (.addReg 1 2) := by decide
theorem test_decode_sub : decode 0b1000000100100101 = .instr (.sub 1 2) := by decide
theorem test_decode_shr : decode 0b1000101010110110 = .instr (.shr 0xA 0xB) := by decide
theorem test_decode_subn : decode 0b1000000100100111 = .instr (.subn 1 2) := by decide
theorem test_decode_shl : decode 0b1000101010111110 = .instr (.shl 0xA 0xB) := by decide
/-- DEC-11: bits 3:0 are ignored -/
theorem test_decode_sneReg : decode 0b1001101010110111 = .instr (.sneReg 0xA 0xB) := by decide
theorem test_decode_ldI : decode 0b1010001100000000 = .instr (.ldI 0x300) := by decide
theorem test_decode_jpV0 : decode 0b1011000100100011 = .instr (.jpV0 0x123) := by decide
theorem test_decode_rnd : decode 0b1100000100001111 = .instr (.rnd 1 0x0F) := by decide
/-- DEC-1 -/
theorem test_decode_drw : decode 0b1101000100101111 = .instr (.drw 1 2 15) := by decide
theorem test_decode_skp : decode 0b1110000010011110 = .instr (.skp 0) := by decide
theorem test_decode_sknp : decode 0b1110000110100001 = .instr (.sknp 1) := by decide
theorem test_decode_ldVxDT : decode 0b1111001100000111 = .instr (.ldVxDT 3) := by decide
theorem test_decode_ldVxK : decode 0b1111010100001010 = .instr (.ldVxK 5) := by decide
theorem test_decode_ldDTVx : decode 0b1111000000010101 = .instr (.ldDTVx 0) := by decide
theorem test_decode_ldSTVx : decode 0b1111010000011000 = .instr (.ldSTVx 4) := by decide
theorem test_decode_addI : decode 0b1111001000011110 = .instr (.addI 2) := by decide
theorem test_decode_ldF : decode 0b1111000000101001 = .instr (.ldF 0) := by decide
theorem test_decode_ldB : decode 0b1111000100110011 = .instr (.ldB 1) := by decide
theorem test_decode_storeRegs : decode 0b1111001001010101 = .instr (.storeRegs 2) := by decide
theorem test_decode_loadRegs : decode 0b1111000101100101 = .instr (.loadRegs 1) := by decide
/-- DEC-13 -/
theorem test_decode_unknown8 : decode 0x800F = .unknown 0x800F := by decide
/-- DEC-19 -/
theorem test_decode_unknownF : decode 0xFFFF = .unknown 0xFFFF := by decide
theorem test_decodeTableWord : decodeTableWord 16 0x8124 = some (.addReg 1 2) := by decide
theorem test_decodeTableWord_refuses : decodeTableWord 16 0x0000 = none := by decide

/-! ### Fetch and dispatch -/

/-- FD-2: an odd PC is no fault -/
theorem test_odd_pc :
    after (State.reset.setPc 0x201) 0x6207 (fun t => (t.getV 2, t.pc)) = some (0x07, 0x203) := by decide
/-- FD-3 -/
theorem test_fetch_last_word :
    after (State.reset.setPc 0xFFE) 0x6301 (fun t => (t.getV 3, t.pc)) = some (0x01, 0x1000) := by decide
/-- FD-4 -/
theorem test_fetch_outside : step (State.reset.setPc 0x1000) = .fault (.addressOutOfRange 0x1000) := rfl
/-- FD-5 -/
theorem test_fetch_half_outside : step (State.reset.setPc 0xFFF) = .fault (.addressOutOfRange 0x1000) := rfl
/-- FD-6 -/
theorem test_unknown_halt : stops (under .halt .level .draw) 0x0123 = some (.unknownOpcode 0x0123) := by decide
/-- FD-7 -/
theorem test_unknown_skip :
    after (under .skip .level .draw) 0x0123 (fun t => (t.pc, t.outputs)) =
      some (0x202, [.error (.unknownOpcode 0x0123)]) := by decide
/-- R394 -/
theorem test_step_before_load : step (State.constructed Config.standard) = .refused .stepBeforeLoad := rfl

/-! ### Control flow -/

/-- CF-1 -/
theorem test_jp : after State.reset 0x1234 (·.pc) = some 0x234 := by decide
/-- CF-2 -/
theorem test_call : after State.reset 0x2300 (fun t => (t.stack, t.pc)) = some ([0x202], 0x300) := by decide
/-- CF-7, the 17th nested CALL -/
theorem test_call_overflow :
    stops (State.reset.setStack (List.replicate 16 0x202)) 0x2200 = some .stackOverflow := by decide
/-- CF-3 -/
theorem test_ret :
    after ((State.reset.setPc 0x300).setStack [0x202]) 0x00EE (fun t => (t.stack, t.pc)) = some ([], 0x202) := by
  decide
/-- CF-4 -/
theorem test_ret_underflow : stops (State.reset.setPc 0x300) 0x00EE = some .stackUnderflow := by decide
/-- CF-5 -/
theorem test_seImm : after (State.reset.setV 3 0x10) 0x3310 (·.pc) = some 0x204 := by decide
/-- CF-6 -/
theorem test_seImm_no : after (State.reset.setV 3 0x10) 0x3311 (·.pc) = some 0x202 := by decide
/-- CF-8 -/
theorem test_sneImm : after (State.reset.setV 3 0x10) 0x4311 (·.pc) = some 0x204 := by decide
/-- CF-10 -/
theorem test_seReg : after (regs12 7 7) 0x5120 (·.pc) = some 0x204 := by decide
/-- CF-11 -/
theorem test_seReg_no : after (regs12 7 8) 0x5120 (·.pc) = some 0x202 := by decide
/-- CF-13 -/
theorem test_sneReg : after (regs12 7 8) 0x9120 (·.pc) = some 0x204 := by decide
/-- CF-14 -/
theorem test_sneReg_same : after (regs12 7 8) 0x9110 (·.pc) = some 0x202 := by decide
/-- CF-15 -/
theorem test_jpV0 : after (State.reset.setV 0 0x10) 0xB300 (·.pc) = some 0x310 := by decide
/-- CF-16 -/
theorem test_jpV0_top : after (State.reset.setV 0 0xFF) 0xBFFF (·.pc) = some 0x10FE := by decide

/-! ### Arithmetic and logic -/

/-- AL-1 -/
theorem test_ldImm : after State.reset 0x6A9D (·.getV 0xA) = some 0x9D := by decide
/-- AL-2 -/
theorem test_addImm : after ((regs12 0xFF 0).setV VF 0x55) 0x7102 v1vf = some (0x01, 0x55) := by decide
/-- AL-4 -/
theorem test_ldReg : after (regs12 0 0x33) 0x8120 (·.getV 1) = some 0x33 := by decide
/-- AL-5 -/
theorem test_or : after (regs12 0x0F 0xF0) 0x8121 v1vf = some (0xFF, 0) := by decide
/-- AL-5 -/
theorem test_and : after (regs12 0x3C 0x0F) 0x8122 v1vf = some (0x0C, 0) := by decide
/-- AL-5 -/
theorem test_xor : after (regs12 0x3C 0x0F) 0x8123 v1vf = some (0x33, 0) := by decide
/-- AL-9 -/
theorem test_addReg : after (regs12 0xFF 0xFF) 0x8124 v1vf = some (0xFE, 1) := by decide
/-- AL-10: the sum overwrites the flag -/
theorem test_addReg_vf : after ((regs12 0x20 0).setV VF 0x10) 0x8F14 (·.getV VF) = some 0x30 := by decide
/-- AL-13 -/
theorem test_sub : after (regs12 3 5) 0x8125 v1vf = some (0xFE, 0) := by decide
/-- AL-14: strictly greater -/
theorem test_sub_equal : after (regs12 7 7) 0x8125 v1vf = some (0, 0) := by decide
/-- AL-19 -/
theorem test_subn : after (regs12 3 5) 0x8127 v1vf = some (2, 1) := by decide
/-- AL-21 -/
theorem test_subn_equal : after (regs12 7 7) 0x8127 v1vf = some (0, 0) := by decide
/-- AL-24: Vy is not used -/
theorem test_shr : after (regs12 0x04 0xFF) 0x8126 v1vf = some (0x02, 0) := by decide
/-- AL-26: flag 0 first, then the shifted value -/
theorem test_shr_vf : after (State.reset.setV VF 0x02) 0x8F06 (·.getV VF) = some 0x01 := by decide
/-- AL-28 -/
theorem test_shl : after (regs12 0x81 0) 0x810E v1vf = some (0x02, 1) := by decide
/-- AL-31: Vy is not used -/
theorem test_shl_no_vy : after (regs12 0x40 0x80) 0x812E v1vf = some (0x80, 0) := by decide
/-- AL-32: the draw is 0xB7 -/
theorem test_rnd :
    after (State.reset.setRng ⟨[0xB7], 0⟩) 0xC10F (fun t => (t.getV 1, t.rng)) = some (0x07, ⟨[], 1⟩) := by decide

/-! ### Index and memory -/

/-- IM-1 -/
theorem test_ldI : after State.reset 0xA300 (·.i) = some 0x300 := by decide
/-- IM-3 -/
theorem test_addI : after ((withI 0xFFFF).setV 1 1) 0xF11E (fun t => (t.i, t.getV VF)) = some (0, 0) := by decide
/-- IM-7 -/
theorem test_ldF : after (State.reset.setV 0 0xFF) 0xF029 (·.i) = some 0x4FB := by decide
/-- IM-8 -/
theorem test_ldB :
    after ((withI 0x300).setV 1 157) 0xF133 (fun t => (t.readBytes 0x300 3, t.i)) = some ([1, 5, 7], 0x300) := by
  decide
/-- IM-11 -/
theorem test_ldB_outside : stops (withI 4094) 0xF133 = some (.addressOutOfRange 4096) := by decide
/-- IM-15 -/
theorem test_storeRegs :
    after (((withI 0xFF0).setV 1 2).setV 0xF 3) 0xFF55
      (fun t => (t.readByte 0xFF1, t.readByte 0xFFF, t.i)) = some (2, 3, 0x1000) := by decide
/-- IM-16 -/
theorem test_storeRegs_outside : stops (withI 0xFF1) 0xFF55 = some (.addressOutOfRange 4096) := by decide
/-- IM-17 -/
theorem test_loadRegs :
    after ((withI 0x300).writeBytes 0x300 [1, 5, 7]) 0xF265
      (fun t => (t.getV 0, t.getV 1, t.getV 2, t.i)) = some (1, 5, 7, 0x303) := by decide
/-- IM-19 -/
theorem test_loadRegs_outside : stops (withI 0x1000) 0xF065 = some (.addressOutOfRange 0x1000) := by decide

/-! ### Display -/

/-- A display with one pixel set. -/
def onePixel (p : Pixel) : Display := (xorPixel clearDisplay p).1

/-- DS-1 -/
theorem test_cls :
    after (State.reset.setDisplay (onePixel (5, 5))) 0x00E0 (fun t => (t.display, t.outputs)) =
      some (clearDisplay, [.clear]) := by decide
/-- DS-5: wrap on the vertical axis -/
theorem test_drw_wrap :
    after (((withI 0x300).setV 2 31).writeBytes 0x300 [0x80, 0x80]) 0xD122
      (fun t => (pixelAt t.display (0, 31), pixelAt t.display (0, 0), t.getV VF)) = some (true, true, 0) := by
  decide
/-- DS-7: collision -/
theorem test_drw_collision :
    after (((withI 0x300).setDisplay (onePixel (0, 0))).writeBytes 0x300 [0xC0]) 0xD121
      (fun t => (pixelAt t.display (0, 0), pixelAt t.display (1, 0), t.getV VF, t.outputs)) =
      some (false, true, 1, [.present]) := by decide

/-! ### Input and timers -/

/-- The reset state with key 7 down and V1 naming it. -/
def key7 : State := (State.reset.setKeys 0x0080).setV 1 0x07

/-- IT-1 -/
theorem test_skp : after key7 0xE19E (·.pc) = some 0x204 := by decide
/-- IT-4 -/
theorem test_sknp : after key7 0xE1A1 (·.pc) = some 0x202 := by decide
/-- IT-5 -/
theorem test_sknp_notPressed :
    after (((under .halt .level .notPressed).setKeys 0x0080).setV 1 0x17) 0xE1A1 (·.pc) = some 0x204 := by decide
/-- IT-6 -/
theorem test_skp_lowNibble :
    after (((under .halt .level .lowNibble).setKeys 0x0080).setV 1 0x17) 0xE19E (·.pc) = some 0x204 := by decide
/-- IT-7 -/
theorem test_ldVxDT : after (State.reset.setDT 0x2A) 0xF307 (fun t => (t.getV 3, t.dt)) = some (0x2A, 0x2A) := by
  decide
/-- IT-9 -/
theorem test_ldDTVx : after (State.reset.setV 0 3) 0xF015 (fun t => (t.dt, t.getV 0)) = some (3, 3) := by decide
/-- IT-10 -/
theorem test_ldSTVx :
    after (State.reset.setV 4 0x1E) 0xF418 (fun t => (t.st, t.soundActive)) = some (0x1E, true) := by decide
/-- IT-13 -/
theorem test_ldVxK :
    after State.reset 0xF50A (fun t => (t.mode, t.pc, t.getV 5)) = some (.awaitingKey 5, 0x202, 0) := by decide
/-- FD-13: the edge trigger records the keys -/
theorem test_ldVxK_edge :
    after ((under .halt .edge .draw).setKeys 0x0020) 0xF30A (·.lastKeys) = some 0x0020 := by decide
/-- IT-14 -/
theorem test_await_completes :
    afterStep ((State.reset.setMode (.awaitingKey 5)).setKeys 0x1000) (fun t => (t.getV 5, t.mode, t.pc)) =
      some (0x0C, .running, 0x200) := by decide
/-- FD-9 -/
theorem test_await_no_key :
    afterStep (State.reset.setMode (.awaitingKey 3)) (fun t => (t.mode, t.getV 3)) = some (.awaitingKey 3, 0) := by
  decide
/-- FD-12: of two keys, the one the parameter's table names -/
theorem test_await_pick :
    afterStep
      { (State.reset.setMode (.awaitingKey 3)).setKeys 0x0204 with
        cfg := { Config.standard with pickKey := [(0x0204, 2)] } } (·.getV 3) = some 0x02 := by decide
/-- FD-13: a held key is no edge -/
theorem test_await_edge_held :
    afterStep ((((under .halt .edge .draw).setMode (.awaitingKey 3)).setKeys 0x0020).setLastKeys 0x0020)
      (·.mode) = some (.awaitingKey 3) := by decide

/-! ### The host's calls -/

/-- IT-12 -/
theorem test_tick :
    afterStep ((State.reset.setST 5).setCalls [.tick]) (fun t => (t.dt, t.st, t.calls)) = some (0, 4, []) := by
  decide
/-- LR-4 -/
theorem test_load :
    afterStep (((State.reset.setStack [0x202]).setMode (.awaitingKey 3)).setCalls [.load [0x12, 0x00]])
      (fun t => (t.stack, t.mode, t.pc, t.fetchWord)) = some ([], .running, 0x200, 0x1200) := by decide
/-- LR-2: the error is reported and the block stays as it was -/
theorem test_load_too_large :
    step (State.reset.setCalls [.load (List.replicate 3585 0)]) =
      .next (State.reset.emit (.error (.programTooLarge 3585))) := by
  show react State.reset (call (.load (List.replicate 3585 0)) State.reset) = _
  unfold call load
  simp only [test_imageFits_refuses_3585, List.length_replicate]
  rfl

/-- R343, R361: the host goes on after an error, and the tick behind the failing step runs. -/
theorem test_tick_after_error :
    afterStep { (State.reset.setDT 5).setCalls [.step, .tick] with onError := .goOn }
      (fun t => (t.outputs, afterStep t (fun u => (u.dt, u.pc)))) =
      some ([.error (.unknownOpcode 0)], some (4, 0x200)) := by decide
/-- R140: after the queue the plan's calls come, again and again. -/
theorem test_plan_repeats :
    afterStep { State.reset.setDT 5 with plan := .repeats .tick [.step] }
      (fun t => (t.dt, t.calls, t.takeCall.1)) = some (4, [.step], .step) := by decide

/-! ### Witnesses: for each statement with hypotheses, inputs that meet them, each clause at a boundary -/

/-- Whether a result is a next state. -/
def goesOn : Result → Bool
  | .next _ => true
  | _ => false

/-- A word for each row that selects it: the hypothesis of `RowDecodes`. -/
theorem witness_rows_class0_to_7 :
    (0x0FE0#16 &&& 0xF0FF = 0x00E0 ∧ 0x01EE#16 &&& 0xF0FF = 0x00EE ∧ 0x1FFF#16 &&& 0xF000 = 0x1000 ∧
      0x2FFF#16 &&& 0xF000 = 0x2000 ∧ 0x3FFF#16 &&& 0xF000 = 0x3000 ∧ 0x4FFF#16 &&& 0xF000 = 0x4000 ∧
      0x5FFF#16 &&& 0xF000 = 0x5000 ∧ 0x6FFF#16 &&& 0xF000 = 0x6000 ∧ 0x7FFF#16 &&& 0xF000 = 0x7000) := by decide
theorem witness_rows_class8 :
    (0x8FF0#16 &&& 0xF00F = 0x8000 ∧ 0x8FF1#16 &&& 0xF00F = 0x8001 ∧ 0x8FF2#16 &&& 0xF00F = 0x8002 ∧
      0x8FF3#16 &&& 0xF00F = 0x8003 ∧ 0x8FF4#16 &&& 0xF00F = 0x8004 ∧ 0x8FF5#16 &&& 0xF00F = 0x8005 ∧
      0x8FF6#16 &&& 0xF00F = 0x8006 ∧ 0x8FF7#16 &&& 0xF00F = 0x8007 ∧ 0x8FFE#16 &&& 0xF00F = 0x800E) := by decide
theorem witness_rows_class9_to_E :
    (0x9FFF#16 &&& 0xF000 = 0x9000 ∧ 0xAFFF#16 &&& 0xF000 = 0xA000 ∧ 0xBFFF#16 &&& 0xF000 = 0xB000 ∧
      0xCFFF#16 &&& 0xF000 = 0xC000 ∧ 0xDFFF#16 &&& 0xF000 = 0xD000 ∧ 0xEF9E#16 &&& 0xF0FF = 0xE09E ∧
      0xEFA1#16 &&& 0xF0FF = 0xE0A1) := by decide
theorem witness_rows_classF :
    (0xFF07#16 &&& 0xF0FF = 0xF007 ∧ 0xFF0A#16 &&& 0xF0FF = 0xF00A ∧ 0xFF15#16 &&& 0xF0FF = 0xF015 ∧
      0xFF18#16 &&& 0xF0FF = 0xF018 ∧ 0xFF1E#16 &&& 0xF0FF = 0xF01E ∧ 0xFF29#16 &&& 0xF0FF = 0xF029 ∧
      0xFF33#16 &&& 0xF0FF = 0xF033 ∧ 0xFF55#16 &&& 0xF0FF = 0xF055 ∧ 0xFF65#16 &&& 0xF0FF = 0xF065) := by decide

theorem witness_DecodeFollowsOpcodeMap :
    decode 0x8124 = .instr (.addReg 1 2) ∧ decode 0x8008 = .unknown 0x8008 ∧
      (0x8124#16 &&& (rowOf (.addReg 1 2)).mask = (rowOf (.addReg 1 2)).pattern ∧
        0x8124#16 &&& (rowOf (.addReg 3 4)).mask = (rowOf (.addReg 3 4)).pattern) := by decide

/-- Both sides of every class's boundary. -/
theorem witness_UnknownWordsAreThoseListed :
    (decode 0x00DF = .unknown 0x00DF ∧ decode 0x00E0 = .instr .cls ∧ decode 0x00ED = .unknown 0x00ED ∧
      decode 0x8008 = .unknown 0x8008 ∧ decode 0x8007 = .instr (.subn 0 0) ∧ decode 0x800D = .unknown 0x800D ∧
      decode 0x800E = .instr (.shl 0 0) ∧ decode 0xE09D = .unknown 0xE09D ∧ decode 0xE09E = .instr (.skp 0) ∧
      decode 0xF064 = .unknown 0xF064 ∧ decode 0xF065 = .instr (.loadRegs 0)) := by decide

theorem witness_IgnoredBitsExactly :
    decode 0x0FE0 = .instr .cls ∧ ignoredBits .cls = 0x0F00 ∧ decode 0x512F = .instr (.seReg 1 2) ∧
      ignoredBits (.seReg 1 2) = 0x000F := by decide

/-- A state that fetches at the last word of memory. -/
def atTop : State := (State.reset.setPc 4094).writeBytes 4094 [0x81, 0x24]

theorem witness_StepRunsDecodedInstruction :
    atTop.pc.toNat = 4094 ∧ atTop.onError = .stop ∧
      decode (wordOfBytes (atTop.readByte 4094) (atTop.readByte 4095)) = .instr (.addReg 1 2) ∧
      goesOn (exec (.addReg 1 2) (atTop.takeCall.2.setPc (atTop.pc + 2))) = true := by decide
/-- The word of RET with an empty stack: a step that returns an error. -/
theorem witness_StepRunsDecodedInstruction_error :
    exec .ret ((State.reset.withFetchWord 16 0x00EE).takeCall.2.setPc 0x202) = .fault .stackUnderflow := rfl

/-- A host that goes on after errors and whose calls after the queue are free. -/
def goingOn : State := { State.reset with plan := .free 7, onError := .goOn }

theorem witness_HostCallsInOrder :
    (State.reset.setCalls [.tick, .step]).calls = [.tick, .step] ∧
      (State.reset.calls = [] ∧ State.reset.plan = .repeats .step []) ∧
      (goingOn.calls = [] ∧ goingOn.plan = .free 7) := by decide
theorem witness_EveryCallSequenceRuns :
    goingOn.loaded = true ∧ goingOn.onError = .goOn ∧ 1 < (goingOn.setCalls [.tick, .step]).calls.length := by decide

/-- `step()` next by the plan, and by the queue of a host whose later calls are free. -/
theorem witness_Ready_queued : StepIsNext State.reset ∧ Ready (goingOn.setCalls [.step]) := ⟨rfl, rfl, rfl, rfl⟩
theorem witness_Ready : Ready State.reset ∧ Ready (State.reset.setPc 4096) ∧ Ready (State.reset.setPc 4095) ∧
    Ready atTop ∧ decode atTop.fetchWord = .instr (.addReg 1 2) :=
  ⟨⟨rfl, rfl, rfl⟩, ⟨rfl, rfl, rfl⟩, ⟨rfl, rfl, rfl⟩, ⟨rfl, rfl, rfl⟩, by decide⟩
theorem witness_FetchChecksAndAdvances :
    4095 < (State.reset.setPc 4096).pc.toNat ∧ (State.reset.setPc 4095).pc.toNat = 4095 ∧ atTop.pc.toNat < 4095 := by
  decide

/-- Word 0 at PC under either policy. -/
theorem witness_UnknownOpcodeFollowsPolicy :
    (Ready (under .halt .level .draw) ∧ (under .halt .level .draw).cfg.unknownOpcodePolicy = .halt ∧
      decode (under .halt .level .draw).fetchWord = .unknown 0) ∧
    (Ready (under .skip .level .draw) ∧ (under .skip .level .draw).cfg.unknownOpcodePolicy = .skip ∧
      decode (under .skip .level .draw).fetchWord = .unknown 0) :=
  ⟨⟨⟨rfl, rfl, rfl⟩, rfl, by decide⟩, ⟨rfl, rfl, rfl⟩, rfl, by decide⟩

/-- A state that waits for a key under the trigger `t`, with keys and snapshot given. -/
def waiting (t : KeyWaitTrigger) (keys last : KeyMap) : State :=
  (((under .halt t .draw).setMode (.awaitingKey 3)).setKeys keys).setLastKeys last

theorem witness_AwaitStep :
    (waiting .edge 1 1).loaded = true ∧ StepIsNext (waiting .edge 1 1) ∧
      StepIsNext ((waiting .edge 1 1).setCalls [.step]) ∧ (waiting .edge 1 1).mode = .awaitingKey 3 :=
  ⟨rfl, rfl, rfl, rfl⟩
/-- Two keys, the table naming the upper one. -/
def picking : State :=
  { waiting .level 0x8001 0 with cfg := { (waiting .level 0 0).cfg with pickKey := [(0x8001, 15)] } }
theorem witness_PickKeyIsAParameter :
    (picking.loaded = true ∧ picking.mode = .awaitingKey 3 ∧ goesOn (step picking) = true ∧
      picking.cfg.pickKey.lookup picking.qualifyingKeys = some 15) ∧
    ((picking.setV 1 7).setMode (.awaitingKey 4)).cfg = picking.cfg := by decide
theorem witness_PickKeyIsAParameter_key :
    StepIsNext picking ∧ KeyQualifies picking 15 :=
  ⟨rfl, by decide, by decide, fun h => absurd h (by decide)⟩
theorem witness_AwaitStep_none :
    (∀ k, ¬ KeyQualifies (waiting .level 0 0) k) ∧ ∀ k, ¬ KeyQualifies (waiting .edge 0x8001 0x8001) k := by
  have h : ∀ k < 16, ¬ (((waiting .edge 0x8001 0x8001).keys.getLsbD k = true) ∧
      (waiting .edge 0x8001 0x8001).lastKeys.getLsbD k = false) := by decide
  exact ⟨fun k h => absurd h.2.1 (by show (0#16).getLsbD k ≠ true; simp), fun k hk => h k hk.1 ⟨hk.2.1, hk.2.2 rfl⟩⟩
theorem witness_AwaitStep_key :
    KeyQualifies (waiting .level 0x8000 0x8000) 15 ∧ KeyQualifies (waiting .edge 0x0001 0x8000) 0 :=
  ⟨⟨by decide, by decide, fun h => absurd h (by decide)⟩, by decide, by decide, fun _ => by decide⟩

theorem witness_StepBeforeLoadRefused :
    (State.constructed Config.standard).loaded = false ∧ StepIsNext (State.constructed Config.standard) ∧
      ((State.constructed Config.standard).setCalls [.step]).calls = [.step] ∧
      load [] (State.constructed Config.standard) = .ok State.reset := ⟨rfl, rfl, rfl, rfl⟩

/-- A tick with DT at 0 and ST at 1, and the other way round. -/
theorem witness_TickCountsDown :
    (((State.reset.setST 1).setCalls [.tick]).takeCall.1 = .tick ∧ (State.reset.setST 1).dt = 0 ∧
      0 < (State.reset.setST 1).st.toNat) ∧
    (((State.reset.setDT 1).setCalls [.tick]).takeCall.1 = .tick ∧ (State.reset.setDT 1).st = 0 ∧
      0 < (State.reset.setDT 1).dt.toNat) := by decide

theorem witness_LoadResetsTheBlock (n : Nat) :
    (State.reset.setCalls [.load (List.replicate n 0)]).takeCall.1 = .load (List.replicate n 0) ∧
      (List.replicate 3584 (0 : Byte)).length ≤ 3584 ∧ 3584 < (List.replicate 3585 (0 : Byte)).length :=
  ⟨rfl, by rw [List.length_replicate], by rw [List.length_replicate]; omega⟩
/-- The first and last addresses of the image, of the font, and of what is neither. -/
theorem witness_LoadResetsTheBlock_ranges :
    (0x200 < 0x200 + 3584 ∧ 0xFFF < 0x200 + 3584 ∧ 79 < 80 ∧ 0x1FF < 0x200 ∧ 0x202 ≤ 0x202) ∧
    afterStep (State.reset.setCalls [.load [0x12, 0x34]])
      (fun t => (t.readByte 0x200, t.readByte 0x201, t.readByte 0x202, t.readByte 0x1FF, t.readByte 79, t.readByte 80)) =
      some (0x12, 0x34, 0, 0, 0x80, 0) := by decide

theorem witness_KeyMapBelongsToTheHost :
    (State.reset.setCalls [.setKeys 1]).takeCall.1 = .setKeys 1 ∧ goesOn (step atTop) = true ∧
      ∀ k, atTop.takeCall.1 ≠ .setKeys k :=
  ⟨rfl, by decide, fun _ h => HostCall.noConfusion h⟩
theorem witness_LoadKeepsTheRest : load [] State.reset = .ok State.reset := rfl

/-- The invariant at its bounds: 16 entries, each 0x1000, and cells in memory. -/
def invBounds : State := (State.reset.withFetchWord 16 0x1200).setStack (List.replicate 16 0x1000)
theorem witness_StepKeepsInvariant : invBounds.Inv ∧ goesOn (step invBounds) = true :=
  ⟨⟨by decide, fun a ha => by
      rw [List.eq_of_mem_replicate (show a ∈ List.replicate 16 0x1000#16 from ha)]; decide, by decide, by decide⟩,
    by decide⟩
theorem witness_ParametersNeverChange : goesOn (step atTop) = true := by decide

theorem witness_SameErrorAgain :
    stepCall State.reset = .fault (.unknownOpcode 0) ∧ StepIsNext State.reset ∧
      stepCall goingOn = .fault (.unknownOpcode 0) ∧ goesOn (step (goingOn.setCalls [.step])) = true :=
  ⟨rfl, rfl, rfl, by decide⟩
theorem witness_SameErrorAgain_call : ∀ image, (goingOn.setCalls [.step]).takeCall.1 ≠ .load image :=
  fun _ h => HostCall.noConfusion h
theorem witness_TickRunsAfterAnyError :
    (goingOn.setCalls [.step, .tick]).onError = .goOn ∧
      stepCall (goingOn.setCalls [.step, .tick]) = .fault (.unknownOpcode 0) ∧
      (0 < ((goingOn.setDT 1).setCalls [.step, .tick]).dt.toNat ∧ goingOn.dt = 0) ∧
      (0 < ((goingOn.setST 1).setCalls [.step, .tick]).st.toNat ∧ goingOn.st = 0) :=
  ⟨rfl, rfl, by decide, by decide⟩

/-- One instruction of each form that needs no memory. -/
def registerForms : List Instr :=
  [.cls, .ret, .jp 0, .call 0, .seImm 0 0, .sneImm 0 0, .seReg 0 1, .ldImm 0 0, .addImm 0 0, .ldReg 0 1, .orReg 0 1,
    .andReg 0 1, .xorReg 0 1, .addReg 0 1, .sub 0 1, .shr 0 1, .subn 0 1, .shl 0 1, .sneReg 0 1] ++
  [.ldI 0, .jpV0 0, .rnd 0 0, .skp 0, .sknp 0, .ldVxDT 0, .ldVxK 0, .ldDTVx 0, .ldSTVx 0, .addI 0, .ldF 0]

/-- Every instruction goes on in one state: the hypothesis of RegisterWriters and WritersOfOtherState. -/
theorem witness_WritersOfOtherState :
    ∀ i ∈ registerForms, goesOn (exec i (State.reset.setStack [0x202])) = true := by decide
theorem witness_WritersOfOtherState_memory :
    ∀ i ∈ [Instr.ldB 0, .storeRegs 1, .loadRegs 1, .drw 0 1 1], goesOn (exec i (withI 0x300)) = true := by decide
theorem witness_RegisterWriters : (0 : Reg) ∉ regsWritten (.addReg 1 2) ∧ (2 : Reg) ∉ regsWritten (.loadRegs 1) := by
  decide

theorem witness_AwaitEnteredAndLeft :
    State.reset.mode = .running ∧ after State.reset 0xF50A (·.mode) = some (.awaitingKey 5) ∧
      afterStep (waiting .level 0 0) (·.mode) = some (.awaitingKey 3) ∧
      afterStep (waiting .level 2 0) (·.mode) = some .running ∧
      afterStep ((waiting .level 0 0).setCalls [.load []]) (·.mode) = some .running := by decide

theorem witness_TimersAreOutOfReach :
    ∀ x, (Instr.addReg 1 2) ≠ .ldVxDT x ∧ (Instr.addReg 1 2) ≠ .ldDTVx x ∧ (Instr.addReg 1 2) ≠ .ldSTVx x := by
  decide
theorem witness_TickCommutesWithStep :
    (∀ x, decode atTop.fetchWord ≠ .instr (.ldVxDT x) ∧ decode atTop.fetchWord ≠ .instr (.ldDTVx x) ∧
      decode atTop.fetchWord ≠ .instr (.ldSTVx x)) ∧ (waiting .level 0 0).mode ≠ .running := by decide

theorem witness_SelfJumpKeepsState :
    AtEnd (State.reset.withFetchWord 16 0x1200) ∧ StepIsNext (State.reset.withFetchWord 16 0x1200) :=
  ⟨⟨rfl, rfl, by decide, 0x200, by decide, by decide⟩, rfl⟩
theorem witness_PlacedWordRuns :
    (State.reset.setPc 4094).pc.toNat < 4095 ∧ State.reset.onError = .stop ∧
      goesOn (step (State.reset.withFetchWord 16 (encode .cls).toNat)) = true := by decide

theorem witness_CallPushesReturnAddress :
    (State.reset.setStack (List.replicate 15 0)).stack.length < 16 ∧
      (State.reset.setStack (List.replicate 16 0)).stack.length = 16 := by decide
theorem witness_RetPopsReturnAddress :
    (State.reset.setStack [0x202]).stack = [] ++ [0x202] ∧ State.reset.stack = [] := by decide
theorem witness_CallThenRetRestores :
    goesOn (exec (.call 0x300) (State.reset.setStack (List.replicate 15 0x202))) = true := by decide

theorem witness_RegisterSkips :
    (State.reset.setV 3 0x10).getV 3 = 0x10 ∧ (State.reset.setV 3 0x10).getV 3 ≠ 0x11 ∧
      (regs12 7 7).getV 1 = (regs12 7 7).getV 2 ∧ (regs12 7 8).getV 1 ≠ (regs12 7 8).getV 2 := by decide
theorem witness_flagged_operations : (0xE : Reg) ≠ 0xF := by decide
theorem witness_RandomMasked :
    (State.reset.setRng ⟨[0xB7], 0⟩).rng.queue = 0xB7 :: [] ∧ (1 : Reg) ≠ 0 := by decide

theorem witness_BcdStore : (withI 4093).base + 2 ≤ 4095 ∧ 4095 < (withI 4094).base + 2 := by decide
theorem witness_StoreRegisters :
    (withI 0xFF0).base + (0xF : Reg).val ≤ 4095 ∧ 4095 < (withI 0xFF1).base + (0xF : Reg).val ∧
      (0xF : Reg) ≤ 0xF := by decide
theorem witness_LoadRegisters :
    (withI 0xFFF).base + (0 : Reg).val ≤ 4095 ∧ 4095 < (withI 0x1000).base + (0 : Reg).val ∧
      (0 : Reg) ≤ 0 ∧ (0 : Reg) < 1 := by decide
theorem witness_FetchSeesStores :
    0 + 1 ≤ (1 : Reg).val ∧ goesOn (exec (.storeRegs 1) (withI 0x300)) = true ∧
      (State.reset.setPc 0x300).pc.toNat = (withI 0x300).base + 0 := by decide

/-- A sprite row of one pixel at I. -/
def sprite1 (d : Display) : State := ((withI 0xFFF).setDisplay d).writeBytes 0xFFF [0x01]

theorem witness_hits (d : Display) : Hits (sprite1 d) 0 0 1 (7, 0) :=
  ⟨0, by decide, 7, by decide, by
    rw [show (sprite1 d).readByte ((sprite1 d).base + 0) = 0x01 from rfl]; decide, rfl, rfl⟩
theorem witness_not_hits (d : Display) : ¬ Hits (sprite1 d) 0 0 1 (6, 0) := by
  rintro ⟨k, hk, b, hb, h, h1, -⟩
  have hk0 : k = 0 := Nat.lt_one_iff.mp hk
  subst hk0
  rw [show (sprite1 d).readByte ((sprite1 d).base + 0) = 0x01 from rfl] at h
  have h1 : 6 = (0 + b) % 64 := h1
  obtain rfl : b = 6 := by omega
  exact absurd h (by decide)
theorem witness_DrawSprite :
    (∀ k < (1 : Nibble).toNat, (withI 0xFFF).base + k ≤ 4095) ∧
      (∀ p, pixelAt (sprite1 clearDisplay).display p = false) ∧
      pixelAt (sprite1 (onePixel (7, 0))).display (7, 0) = true ∧
      (1 < (2 : Nibble).toNat ∧ 4095 < (withI 0xFFF).base + 1 ∧ ∀ j < 1, (withI 0xFFF).base + j ≤ 4095) ∧
      (0 < (1 : Nibble).toNat ∧ 4095 < (withI 0x1000).base + 0) :=
  ⟨by decide, fun p => by show pixelAt clearDisplay p = false; simp [pixelAt, clearDisplay], by decide, by decide,
    by decide⟩
theorem witness_RedrawRestores :
    (sprite1 clearDisplay).display = clearDisplay ∧ goesOn (exec (.drw 0 0 1) (sprite1 clearDisplay)) = true := by
  decide

/-- The step that stops, for each error of an instruction: the hypotheses of StepStops. -/
theorem witness_StepStops :
    (decode (State.reset.withFetchWord 16 0x00EE).fetchWord = .instr .ret ∧
      (State.reset.withFetchWord 16 0x00EE).stack = []) ∧
    (decode ((withI 4094).withFetchWord 16 0xF133).fetchWord = .instr (.ldB 1) ∧
      4095 < ((withI 4094).withFetchWord 16 0xF133).base + 2) := by decide
theorem witness_StepStops_ready :
    Ready (State.reset.withFetchWord 16 0x00EE) ∧ Ready ((withI 4094).withFetchWord 16 0xF133) :=
  ⟨⟨rfl, rfl, rfl⟩, rfl, rfl, rfl⟩

/-- A state whose V1 holds `v`, under the key policy `k`. -/
def keyIndex (k : KeyIndexPolicy) (v : Byte) : State := (under .halt .level k).setV 1 v

theorem witness_KeySkips :
    ((keyIndex .draw 15).getV 1).toNat ≤ 15 ∧
      (15 < ((keyIndex .notPressed 16).getV 1).toNat ∧ (keyIndex .notPressed 16).cfg.keyIndexPolicy = .notPressed) ∧
      (15 < ((keyIndex .lowNibble 16).getV 1).toNat ∧ (keyIndex .lowNibble 16).cfg.keyIndexPolicy = .lowNibble) ∧
      (15 < ((keyIndex .draw 16).getV 1).toNat ∧ (keyIndex .draw 16).cfg.keyIndexPolicy = .draw) := by decide
theorem witness_KeyWaitEntered :
    (under .halt .level .draw).cfg.keyWaitTrigger = .level ∧ (under .halt .edge .draw).cfg.keyWaitTrigger = .edge := by
  decide

end Sys2Proof.Tests
end

section
/-! PROOFS. The statements about the block's state (10_state.md), with the lemmas they rest on. -/

namespace Sys2Proof.Machine

variable {s t : State}

/-! ### Which instruction writes what -/

theorem getV_congr (h : t.v = s.v) (r : Reg) : t.getV r = s.getV r := by
  simp only [State.getV, h]

/-- A flagged operation writes VF and Vx alone. -/
theorem getV_setFlagThen_other {c : Bool} {x r : Reg} {b : Byte} (h : r ∉ [VF, x]) :
    (s.setFlagThen c x b).getV r = s.getV r := by
  obtain ⟨-, -, -, hother, -⟩ := setFlagThen_spec s c x b
  exact hother r fun hr => h (by simpa [or_comm] using hr)

/-- Settles O28, by cases on the instruction: each writes no register, Vx alone, VF and Vx, VF alone or V0 to Vx. -/
theorem registerWriters : Obligations.RegisterWriters := by
  unfold Obligations.RegisterWriters
  intro i s t h r hr
  cases i
  case ret => obtain ⟨l, a, -, rfl⟩ := execRet_next h; rfl
  case call => obtain ⟨-, rfl⟩ := execCall_next h; rfl
  case ldB => obtain ⟨-, rfl⟩ := execLdB_next h; rfl
  case storeRegs => obtain ⟨-, rfl⟩ := execStoreRegs_next h; rfl
  case loadRegs x =>
    obtain ⟨-, rfl⟩ := execLoadRegs_next h
    have hx : x.val < r.val := by simpa [regsWritten] using hr
    have hout : ¬ (0 ≤ r.val ∧ r.val < 0 + (x.val + 1)) := by omega
    simp only [State.getV, setI_v, setRegs_v, getElem_loadInto _ _ _ _ r.isLt, length_readBytes, if_neg hout]
  case drw =>
    obtain ⟨-, rfl⟩ := execDrw_next h
    have hr : r ≠ VF := by simpa [regsWritten] using hr
    exact (getV_setV _ _ _ _).trans (if_neg hr)
  case skp => cases h; rw [keyDown_state]; exact getV_congr (skipIf_v _ _) r
  case sknp => cases h; rw [keyDown_state]; exact getV_congr (skipIf_v _ _) r
  case ldVxK => cases h; rw [snapshotKeys_eq]; rfl
  case seImm | sneImm | seReg | sneReg => cases h; exact getV_congr (skipIf_v _ _) r
  case addReg | sub | subn | shr | shl => cases h; exact getV_setFlagThen_other hr
  case ldImm | addImm | rnd | ldReg | orReg | andReg | xorReg | ldVxDT =>
    cases h
    exact (getV_setV _ _ _ _).trans (if_neg (List.mem_singleton.not.mp hr))
  all_goals cases h; rfl

/-- Settles O29, by cases on the instruction and the inverted meaning of each that can stop. -/
theorem writersOfOtherState : Obligations.WritersOfOtherState := by
  unfold Obligations.WritersOfOtherState
  intro i s t h
  cases i
  case ret => obtain ⟨l, a, -, rfl⟩ := execRet_next h; simp [SameMemory, State.readByte]
  case call => obtain ⟨-, rfl⟩ := execCall_next h; simp [SameMemory, State.readByte]
  case ldB => obtain ⟨-, rfl⟩ := execLdB_next h; simp
  case storeRegs => obtain ⟨-, rfl⟩ := execStoreRegs_next h; simp
  case loadRegs => obtain ⟨-, rfl⟩ := execLoadRegs_next h; simp [SameMemory, State.readByte]
  case drw => obtain ⟨-, rfl⟩ := execDrw_next h; simp [SameMemory, State.readByte]
  case skp x => cases h; rw [keyDown_state]; simp [SameMemory, State.readByte]
  case sknp x => cases h; rw [keyDown_state]; simp [SameMemory, State.readByte]
  case ldVxK => cases h; rw [snapshotKeys_eq]; simp [SameMemory, State.readByte]
  case rnd => cases h; simp [SameMemory, State.readByte, Supply.advance]
  case addReg | sub | subn | shr | shl => cases h; simp [SameMemory, State.readByte, State.setFlagThen]
  all_goals cases h; simp [SameMemory, State.readByte]

/-! ### What an instruction can do to PC, the stack and memory -/

@[simp] theorem toNat_zextAddr (nnn : Addr12) : (zextAddr nnn).toNat = nnn.toNat :=
  BitVec.toNat_setWidth_of_le (by decide)

@[simp] theorem toNat_zextByte (b : Byte) : (zextByte b).toNat = b.toNat :=
  BitVec.toNat_setWidth_of_le (by decide)

theorem skipIf_pc_cases (s : State) (c : Bool) : (s.skipIf c).pc = s.pc ∨ (s.skipIf c).pc = s.pc + 2 := by
  cases c
  · exact .inl rfl
  · exact .inr rfl

/-- A JP's or CALL's target is an address of memory (R172, R173). -/
theorem toNat_zextAddr_le (nnn : Addr12) : (zextAddr nnn).toNat ≤ 0xFFF :=
  (toNat_zextAddr nnn).trans_le (Nat.le_of_lt_succ nnn.isLt)

/-- A JP V0's target: no wrap, as both summands are small (R178). -/
theorem toNat_jpV0_target (nnn : Addr12) (b : Byte) :
    (zextAddr nnn + zextByte b).toNat = nnn.toNat + b.toNat := by
  have := nnn.isLt
  have := b.isLt
  rw [BitVec.toNat_add, toNat_zextAddr, toNat_zextByte]
  omega

/-- After an instruction PC stays, skips a word, holds a popped return address, or a jump's target, which is at most
0xFFF + 0xFF (R35). -/
theorem exec_pc {i : Instr} (h : exec i s = .next t) :
    t.pc = s.pc ∨ t.pc = s.pc + 2 ∨ t.pc ∈ s.stack ∨ t.pc.toNat ≤ 0x10FE := by
  obtain ⟨-, hpc, -⟩ := writersOfOtherState i s t h
  cases i
  case ret => obtain ⟨l, a, hs, rfl⟩ := execRet_next h; simp [hs]
  case call nnn =>
    obtain ⟨-, rfl⟩ := execCall_next h
    exact .inr (.inr (.inr ((toNat_zextAddr_le nnn).trans (by omega))))
  case jp nnn =>
    cases h
    exact .inr (.inr (.inr ((toNat_zextAddr_le nnn).trans (by omega))))
  case jpV0 nnn =>
    cases h
    have := nnn.isLt
    have := (s.getV 0).isLt
    exact .inr (.inr (.inr ((toNat_jpV0_target nnn _).trans_le (by omega))))
  case seImm | sneImm | seReg | sneReg => cases h; exact (skipIf_pc_cases _ _).imp_right .inl
  case skp | sknp => cases h; rw [keyDown_state]; exact (skipIf_pc_cases _ _).imp_right .inl
  all_goals exact .inl hpc

/-- An instruction leaves the stack, pushes PC onto a stack with room, or pops an entry (R36). -/
theorem exec_stack {i : Instr} (h : exec i s = .next t) :
    t.stack = s.stack ∨ (s.stack.length < 16 ∧ t.stack = s.stack ++ [s.pc]) ∨ ∃ a, s.stack = t.stack ++ [a] := by
  obtain ⟨-, -, hstack, -⟩ := writersOfOtherState i s t h
  cases i
  case ret => obtain ⟨l, a, hs, rfl⟩ := execRet_next h; exact .inr (.inr ⟨a, hs⟩)
  case call => obtain ⟨hl, rfl⟩ := execCall_next h; exact .inr (.inl ⟨hl, rfl⟩)
  all_goals exact .inl hstack

/-- Bytes of a checked access all lie in memory. -/
theorem add_le_of_badAddress_eq_none {a n : Nat} (h : badAddress a n = none) (hn : 0 < n) :
    a + n ≤ maxAddress + 1 := by
  have := badAddress_eq_none.mp h (n - 1) (by omega)
  omega

/-- An instruction leaves the cells, or stores bytes that all lie in memory (R71, R72). -/
theorem exec_mem {i : Instr} (h : exec i s = .next t) :
    t.mem = s.mem ∨ ∃ a bs, a + bs.length ≤ maxAddress + 1 ∧
      t.mem = Memory.writeBytes (resetByte s.cfg) a bs s.mem := by
  obtain ⟨-, -, -, -, -, -, -, hmem, -⟩ := writersOfOtherState i s t h
  cases i
  case ldB =>
    obtain ⟨hb, rfl⟩ := execLdB_next h
    exact .inr ⟨_, bcdDigits _, add_le_of_badAddress_eq_none hb (Nat.succ_pos 2), rfl⟩
  case storeRegs =>
    obtain ⟨hb, rfl⟩ := execStoreRegs_next h
    exact .inr ⟨_, _, by rw [length_regsUpTo]; exact add_le_of_badAddress_eq_none hb (by omega), rfl⟩
  all_goals exact .inl hmem.1

/-! ### The invariant -/

/-- The invariant reads the stack, PC, the cells and the parameters alone. -/
theorem State.Inv.congr (hs : s.Inv) (hstack : t.stack = s.stack) (hpc : t.pc = s.pc) (hmem : t.mem = s.mem)
    (hcfg : t.cfg = s.cfg) : t.Inv where
  depth := hstack ▸ hs.depth
  entries := hstack ▸ hs.entries
  pcBound := hpc ▸ hs.pcBound
  memory := by rw [hmem, hcfg]; exact hs.memory

theorem State.Inv.of_takeCall (hs : s.Inv) : s.takeCall.2.Inv := hs.congr (by simp) (by simp) (by simp) (by simp)

theorem toNat_add_two_le (pc : Word) : (pc + 2).toNat ≤ pc.toNat + 2 := by
  rw [BitVec.toNat_add]
  exact Nat.mod_le _ _

/-- Moving PC keeps the invariant where the target is within the bound. -/
theorem State.Inv.of_setPc (hs : s.Inv) {w : Word} (hw : w.toNat ≤ 0x10FE) : (s.setPc w).Inv :=
  ⟨hs.depth, hs.entries, hw, hs.memory⟩

/-- An instruction keeps the invariant where PC, which it may push, is at most 0x1000. -/
theorem State.Inv.of_exec {i : Instr} (hs : s.Inv) (hpc : s.pc.toNat ≤ 0x1000) (h : exec i s = .next t) : t.Inv := by
  obtain ⟨-, -, hcfg, -⟩ := exec_keeps h
  have hstack := exec_stack h
  refine ⟨?depth, ?entries, ?pcBound, ?memory⟩
  case depth =>
    have := hs.depth
    rcases hstack with e | ⟨hl, e⟩ | ⟨a, e⟩
    · rwa [e]
    · rw [e, List.length_append, List.length_singleton]; omega
    · rw [e, List.length_append] at this; omega
  case entries =>
    intro a ha
    rcases hstack with e | ⟨-, e⟩ | ⟨b, e⟩
    · exact hs.entries a (e ▸ ha)
    · rcases List.mem_append.mp (e ▸ ha) with ha | ha
      · exact hs.entries a ha
      · rw [List.mem_singleton.mp ha]; exact hpc
    · exact hs.entries a (e ▸ List.mem_append_left _ ha)
  case pcBound =>
    rcases exec_pc h with e | e | e | e
    · rw [e]; exact hs.pcBound
    · have := toNat_add_two_le s.pc; rw [e]; omega
    · have := hs.entries _ e; omega
    · exact e
  case memory =>
    rw [hcfg]
    rcases exec_mem h with e | ⟨a, bs, hle, e⟩ <;> rw [e]
    · exact hs.memory
    · exact Memory.wf_writeBytes bs hs.memory hle

/-- A `step()` that goes on keeps the invariant. -/
theorem State.Inv.of_stepCall (hs : s.Inv) (h : stepCall s = .next t) : t.Inv := by
  rcases (stepCall_next h).2 with ⟨r, -, rfl⟩ | ⟨-, hpc, hrun⟩
  · rw [(awaitStep_eq r s).1]
    exact hs.congr rfl rfl rfl rfl
  · have hle : (s.pc + 2).toNat ≤ 0x1000 := (toNat_add_two_le s.pc).trans (by omega)
    have hnext : (s.setPc (s.pc + 2)).Inv := hs.of_setPc (hle.trans (by omega))
    rcases hrun with ⟨i, -, h⟩ | ⟨w, -, -, rfl⟩
    · exact hnext.of_exec hle h
    · exact hnext.congr rfl rfl rfl rfl

/-- A load of an image that fits gives the invariant, whatever held before. -/
theorem inv_resetWith {image : List Byte} (h : image.length ≤ 3584) (s : State) : (resetWith image s).Inv where
  depth := Nat.zero_le _
  entries := by simp [resetWith]
  pcBound := by simp [resetWith]
  memory := Memory.wf_writeBytes image Memory.wf_nil (by unfold maxAddress; omega)

/-- Settles O22: each way a machine step can go on keeps the invariant. -/
theorem stepKeepsInvariant : Obligations.StepKeepsInvariant := by
  unfold Obligations.StepKeepsInvariant
  intro s t hs h
  have hs := hs.of_takeCall
  have h := step_next h
  cases hc : s.takeCall.1 <;> rw [hc] at h <;> dsimp only at h
  case step =>
    rcases h with h | ⟨e, -, -, rfl⟩
    · exact hs.of_stepCall h
    · exact hs.congr rfl rfl rfl rfl
  case tick => subst h; exact hs.congr rfl rfl rfl rfl
  case load image =>
    rcases h with ⟨hl, rfl⟩ | ⟨-, rfl⟩
    · exact inv_resetWith hl _
    · exact hs.congr rfl rfl rfl rfl
  case setKeys => subst h; exact hs.congr rfl rfl rfl rfl

theorem inv_resetUnder (c : Config) : (State.resetUnder c).Inv where
  depth := Nat.zero_le _
  entries := List.forall_mem_nil _
  pcBound := by simp [State.resetUnder, State.constructed]
  memory := Memory.wf_nil

/-- Settles O23: State.reset is the reset state under the standard parameters. -/
theorem resetMeetsInvariant : Obligations.ResetMeetsInvariant :=
  ⟨inv_resetUnder Config.standard, inv_resetUnder⟩

/-! ### The parameters and the key map -/

/-- No `step()` writes the key map or a parameter (R42, R47). -/
theorem stepCall_keys_cfg (h : stepCall s = .next t) : t.keys = s.keys ∧ t.cfg = s.cfg := by
  rcases (stepCall_next h).2 with ⟨r, -, rfl⟩ | ⟨-, -, ⟨i, -, h⟩ | ⟨w, -, -, rfl⟩⟩
  · rw [(awaitStep_eq r s).1]; exact ⟨rfl, rfl⟩
  · obtain ⟨hkeys, -, hcfg, -⟩ := exec_keeps h
    exact ⟨hkeys, hcfg⟩
  · exact ⟨rfl, rfl⟩

/-- A machine step writes no parameter, and the key map only where the host changes it. -/
theorem step_keys_cfg (h : step s = .next t) :
    t.cfg = s.cfg ∧ ((∀ k, s.takeCall.1 ≠ .setKeys k) → t.keys = s.keys) := by
  have h := step_next h
  cases hc : s.takeCall.1 <;> rw [hc] at h <;> dsimp only at h
  case step =>
    rcases h with h | ⟨e, -, -, rfl⟩
    · obtain ⟨hkeys, hcfg⟩ := stepCall_keys_cfg h
      exact ⟨by simpa using hcfg, fun _ => by simpa using hkeys⟩
    · simp
  case tick => subst h; simp [tick]
  case load => rcases h with ⟨-, rfl⟩ | ⟨-, rfl⟩ <;> simp [resetWith]
  case setKeys k => subst h; exact ⟨by simp, fun hk => absurd rfl (hk k)⟩

/-- Settles O24: the parameters' part of `step_keys_cfg`. -/
theorem parametersNeverChange : Obligations.ParametersNeverChange :=
  fun _ _ h => (step_keys_cfg h).1

/-- Settles O21: the host's change by its equation, every other step by `step_keys_cfg`. -/
theorem keyMapBelongsToTheHost : Obligations.KeyMapBelongsToTheHost := by
  refine ⟨fun s k hk => ?_, fun s t h => (step_keys_cfg h).2⟩
  rw [step, nextCall, hk]
  rfl

/-! ### The key an await step stores -/

@[simp] theorem takeCall_qualifyingKeys (s : State) : s.takeCall.2.qualifyingKeys = s.qualifyingKeys := by
  simp only [State.qualifyingKeys, takeCall_cfg, takeCall_keys, takeCall_lastKeys]

/-- Two states in which the same keys qualify have the same qualifying set. -/
theorem qualifyingKeys_congr (h : ∀ k, KeyQualifies t k ↔ KeyQualifies s k) :
    t.qualifyingKeys = s.qualifyingKeys := by
  apply BitVec.eq_of_getLsbD_eq
  intro k hk
  have hbit := h k
  rw [keyQualifies_iff, keyQualifies_iff, mem_keysOf, mem_keysOf, and_congr_right_iff] at hbit
  exact Bool.eq_iff_iff.mpr (hbit hk)

/-- Where a `step()` in AwaitingKey mode of a loaded block is next, the machine step is the await step. -/
theorem step_of_awaiting {r : Reg} (hl : s.loaded = true) (hn : StepIsNext s) (hm : s.mode = .awaitingKey r) :
    step s = .next (awaitStep r s.takeCall.2) := by
  rw [step_of_stepIsNext hn]
  simp only [stepCall, takeCall_loaded, hl, takeCall_mode, hm, if_true, react]

/-- An await step with a qualifying key stores the parameter's answer for the qualifying set (R145). -/
theorem getV_awaitStep {r : Reg} (hk : ∃ k, KeyQualifies s k) :
    (awaitStep r s).getV r = BitVec.ofNat 8 (pickKey s.cfg s.qualifyingKeys) := by
  have hq : s.qualifyingKeys ≠ 0 := fun e => not_exists.mpr (qualifyingKeys_eq_zero.mp e) hk
  rw [awaitStep, if_neg hq]
  exact (getV_setV _ _ _ _).trans (if_pos rfl)

/-- Making the call changes nothing of which keys qualify. -/
theorem keyQualifies_takeCall {k : Nat} : KeyQualifies s.takeCall.2 k ↔ KeyQualifies s k := by
  rw [keyQualifies_iff, keyQualifies_iff, takeCall_qualifyingKeys]

/-- A machine step that ends a wait stores the parameter's answer for the qualifying set (R145). -/
theorem getV_of_step_awaiting {r : Reg} (hl : s.loaded = true) (hn : StepIsNext s) (hm : s.mode = .awaitingKey r)
    (hk : ∃ k, KeyQualifies s k) (h : step s = .next t) :
    t.getV r = BitVec.ofNat 8 (pickKey s.cfg s.qualifyingKeys) := by
  rw [step_of_awaiting hl hn hm] at h
  cases h
  rw [getV_awaitStep (hk.imp fun _ => keyQualifies_takeCall.mpr), takeCall_cfg, takeCall_qualifyingKeys]

/-- Settles O13: the stored key is a function of the parameters and the qualifying set. -/
theorem pickKeyIsAParameter : Obligations.PickKeyIsAParameter := by
  unfold Obligations.PickKeyIsAParameter
  intro s r s' hl hn hm hk h
  have hstored := getV_of_step_awaiting hl hn hm hk h
  refine ⟨fun u q u' hlu hnu hmu hcfg hsame hu => ?_, fun k htable hkq => ?_⟩
  · obtain ⟨k, hk⟩ := hk
    rw [getV_of_step_awaiting hlu hnu hmu ⟨k, (hsame k).mpr hk⟩ hu, hcfg, qualifyingKeys_congr hsame, hstored]
  · have hbit := (mem_keysOf.mp (keyQualifies_iff.mp hkq)).2
    rw [hstored, pickKey_of_listed htable hbit]

/-! ### Ticks -/

/-- A timer one tick later is one less, floored at 0 (R39). -/
theorem toNat_countDown (b : Byte) : (countDown b).toNat = b.toNat - 1 := by
  unfold countDown
  split
  · rw [BitVec.toNat_sub_of_le (BitVec.le_def.mpr (by simpa using ‹_›))]; rfl
  · omega

/-- Settles O16, by induction on the number of ticks. -/
theorem ticksFloorAtZero : Obligations.TicksFloorAtZero := by
  unfold Obligations.TicksFloorAtZero
  intro n s
  induction n with
  | zero => exact ⟨rfl, rfl, rfl⟩
  | succ n ih =>
    obtain ⟨hdt, hst, hrest⟩ := ih
    rw [Function.iterate_succ_apply']
    refine ⟨?_, ?_, ?_⟩
    · rw [tick, setST_dt, setDT_dt, toNat_countDown, hdt, Nat.sub_sub]
    · rw [tick, setST_st, toNat_countDown, hst, Nat.sub_sub]
    · rw [hrest]; rfl

/-! ### Reset -/

theorem readByte_resetWith_outside {image : List Byte} {a : Nat} (h : a < 0x200 ∨ 0x200 + image.length ≤ a)
    (s : State) : (resetWith image s).readByte a = resetByte s.cfg a :=
  Memory.read_writeBytes_outside image 0x200 [] h

theorem readByte_resetWith_inside {image : List Byte} {k : Nat} (h : k < image.length) (s : State) :
    (resetWith image s).readByte (0x200 + k) = image[k] :=
  Memory.read_writeBytes_inside image 0x200 k [] h

theorem load_of_fits {image : List Byte} (h : image.length ≤ 3584) (s : State) :
    load image s = .ok (resetWith image s) := by
  simp [load, imageFits, maxImageLength, h]

/-- Settles O19: memory by reads outside and inside the bytes of the image. -/
theorem resetState : Obligations.ResetState := by
  unfold Obligations.ResetState
  intro c image hl
  refine ⟨_, load_of_fits hl _, rfl, fun a ha => ?font, fun k hk => readByte_resetWith_inside hk _,
    fun a ha hout => ?rest, rfl, rfl, rfl, rfl, rfl, rfl, rfl⟩
  case font => rw [readByte_resetWith_outside (by omega)]; exact dif_pos ha
  case rest => rw [readByte_resetWith_outside hout]; exact dif_neg (by omega)

/-! ### Call and return -/

/-- Settles O38: RET pops the address the CALL pushed. -/
theorem callThenRetRestores : Obligations.CallThenRetRestores := by
  unfold Obligations.CallThenRetRestores
  intro nnn s t p h
  obtain ⟨-, rfl⟩ := execCall_next h
  simp [exec, execRet, State.pop, State.setStack, State.setPc]

end Sys2Proof.Machine
end

section
/-! PROOFS. The statement about memory (20_memory.md), with the lemmas it rests on. -/

namespace Sys2Proof.Machine

variable {s t u : State}

/-- What LD [I],Vx stored reads back: Vk at I + k, for every k up to x (R255). -/
theorem readByte_of_execStoreRegs {x : Reg} (h : execStoreRegs x s = .next t) (k : Reg) (hk : k ≤ x) :
    t.readByte (s.base + k.val) = s.getV k := by
  obtain ⟨-, rfl⟩ := execStoreRegs_next h
  have hlen : k.val < (s.regsUpTo x).length := by
    rw [length_regsUpTo]
    exact Nat.lt_succ_of_le hk
  calc (s.writeBytes s.base (s.regsUpTo x)).readByte (s.base + k.val)
      = (s.regsUpTo x)[k.val] := readByte_writeBytes_inside s hlen
    _ = s.getV k := getElem_regsUpTo s x k.val hlen

/-- A fetch reads PC, the cells and the parameters alone, high byte first (R73). -/
theorem fetchWord_of_sameCells {a : Nat} (hmem : u.mem = t.mem) (hcfg : u.cfg = t.cfg) (hpc : u.pc.toNat = a) :
    u.fetchWord = wordOfBytes (t.readByte a) (t.readByte (a + 1)) := by
  rw [State.fetchWord, hpc, readByte_congr hmem hcfg, readByte_congr hmem hcfg]

/-- Settles O49: the fetch reads the two cells of the store, and each reads back its register. -/
theorem fetchSeesStores : Obligations.FetchSeesStores := by
  unfold Obligations.FetchSeesStores
  intro x s t k hk hstore u hmem hcfg hpc
  have hx := x.isLt
  have hhigh := readByte_of_execStoreRegs hstore ⟨k, by omega⟩ (Nat.le_of_succ_le hk)
  have hlow := readByte_of_execStoreRegs hstore ⟨k + 1, by omega⟩ hk
  rw [fetchWord_of_sameCells hmem hcfg hpc, hhigh, Nat.add_assoc, hlow]

end Sys2Proof.Machine
end

section
/-! PROOFS. The statements about encoding (30_encoding.md), with the lemmas they rest on. -/

namespace Sys2Proof

/-! ### Words from their fields and their masks -/

section
variable {w : Word} {c : BitVec 4}

theorem wordNNN_fields (hc : fieldClass w = c) : wordNNN c (fieldNNN w) = w :=
  hc ▸ (eq_wordNNN w).symm

theorem wordXKK_fields {kk : Byte} (hc : fieldClass w = c) (hk : fieldKK w = kk) :
    wordXKK c (fieldX w) kk = w :=
  hc ▸ hk ▸ (eq_wordXKK w).symm

theorem wordXYN_fields {n : Nibble} (hc : fieldClass w = c) (hn : fieldN w = n) :
    wordXYN c (fieldX w) (fieldY w) n = w :=
  hc ▸ hn ▸ (eq_wordXYN w).symm

end

theorem fieldX_and_of_allOnes {m : Word} (h : m.extractLsb' 8 4 = BitVec.allOnes 4) (w : Word) :
    fieldX (w &&& m) = fieldX w := by
  simp only [fieldX, BitVec.extractLsb'_and, h, BitVec.and_allOnes]

theorem fieldY_and_of_allOnes {m : Word} (h : m.extractLsb' 4 4 = BitVec.allOnes 4) (w : Word) :
    fieldY (w &&& m) = fieldY w := by
  simp only [fieldY, BitVec.extractLsb'_and, h, BitVec.and_allOnes]

/-- Without the low nibble a word is its class, x and y. -/
theorem and_not_lowNibble (w : Word) :
    w &&& ~~~0x000F#16 = wordXYN (fieldClass w) (fieldX w) (fieldY w) 0x0 := by
  rw [eq_wordXYN (w &&& ~~~0x000F#16), fieldClass_and, fieldN_and, fieldX_and_of_allOnes rfl,
    fieldY_and_of_allOnes rfl, show fieldClass (~~~0x000F#16) = BitVec.allOnes 4 from rfl,
    show fieldN (~~~0x000F#16) = 0#4 from rfl, BitVec.and_allOnes, BitVec.and_zero]
  rfl

/-! ### Decoding and the rows -/

/-- Decoding inverts the encoder. -/
theorem decode_encode (i : Instr) : decode (encode i) = .instr i := by
  suffices h : Laws.RoundTrip.Statement i from h.1
  open Laws.RoundTrip in
  cases i
  exacts [cls, ret, jp _, call _, seImm _ _, sneImm _ _, seReg _ _, ldImm _ _, addImm _ _, ldReg _ _, orReg _ _,
    andReg _ _, xorReg _ _, addReg _ _, sub _ _, shr _ _, subn _ _, shl _ _, sneReg _ _, ldI _, jpV0 _, rnd _ _,
    drw _ _ _, skp _, sknp _, ldVxDT _, ldVxK _, ldDTVx _, ldSTVx _, addI _, ldF _, ldB _, storeRegs _, loadRegs _]

/-- A word that decodes to an instruction selects its row. -/
theorem and_mask_of_decode {w : Word} {i : Instr} (h : decode w = .instr i) :
    w &&& (rowOf i).mask = (rowOf i).pattern :=
  beq_iff_eq.mp (selectedBy_of_decode h)

/-- A word that selects a row decodes to an instruction of that row (R108). -/
theorem decode_of_and_mask {w : Word} {i : Instr} (h : w &&& (rowOf i).mask = (rowOf i).pattern) :
    ∃ j, decode w = .instr j ∧ rowOf j = rowOf i := by
  cases i with
  | cls => exact ⟨_, decode_row_cls h, rfl⟩
  | ret => exact ⟨_, decode_row_ret h, rfl⟩
  | jp => exact ⟨_, decode_row_jp h, rfl⟩
  | call => exact ⟨_, decode_row_call h, rfl⟩
  | seImm => exact ⟨_, decode_row_seImm h, rfl⟩
  | sneImm => exact ⟨_, decode_row_sneImm h, rfl⟩
  | seReg => exact ⟨_, decode_row_seReg h, rfl⟩
  | ldImm => exact ⟨_, decode_row_ldImm h, rfl⟩
  | addImm => exact ⟨_, decode_row_addImm h, rfl⟩
  | ldReg => exact ⟨_, decode_row_ldReg h, rfl⟩
  | orReg => exact ⟨_, decode_row_orReg h, rfl⟩
  | andReg => exact ⟨_, decode_row_andReg h, rfl⟩
  | xorReg => exact ⟨_, decode_row_xorReg h, rfl⟩
  | addReg => exact ⟨_, decode_row_addReg h, rfl⟩
  | sub => exact ⟨_, decode_row_sub h, rfl⟩
  | shr => exact ⟨_, decode_row_shr h, rfl⟩
  | subn => exact ⟨_, decode_row_subn h, rfl⟩
  | shl => exact ⟨_, decode_row_shl h, rfl⟩
  | sneReg => exact ⟨_, decode_row_sneReg h, rfl⟩
  | ldI => exact ⟨_, decode_row_ldI h, rfl⟩
  | jpV0 => exact ⟨_, decode_row_jpV0 h, rfl⟩
  | rnd => exact ⟨_, decode_row_rnd h, rfl⟩
  | drw => exact ⟨_, decode_row_drw h, rfl⟩
  | skp => exact ⟨_, decode_row_skp h, rfl⟩
  | sknp => exact ⟨_, decode_row_sknp h, rfl⟩
  | ldVxDT => exact ⟨_, decode_row_ldVxDT h, rfl⟩
  | ldVxK => exact ⟨_, decode_row_ldVxK h, rfl⟩
  | ldDTVx => exact ⟨_, decode_row_ldDTVx h, rfl⟩
  | ldSTVx => exact ⟨_, decode_row_ldSTVx h, rfl⟩
  | addI => exact ⟨_, decode_row_addI h, rfl⟩
  | ldF => exact ⟨_, decode_row_ldF h, rfl⟩
  | ldB => exact ⟨_, decode_row_ldB h, rfl⟩
  | storeRegs => exact ⟨_, decode_row_storeRegs h, rfl⟩
  | loadRegs => exact ⟨_, decode_row_loadRegs h, rfl⟩

/-! ### Ignored bits (R107) -/

/-- The words agree in every bit that the decoder does not ignore in `i`'s row. -/
def AgreeOutsideIgnored (i : Instr) (w w' : Word) : Prop :=
  w &&& ~~~ignoredBits i = w' &&& ~~~ignoredBits i

theorem agree_encode_of_eq {w : Word} {i : Instr} (h : encode i = w) : AgreeOutsideIgnored i w (encode i) :=
  h ▸ rfl

theorem agree_wordXYN {w : Word} {c n : BitVec 4} (hc : fieldClass w = c) :
    w &&& ~~~0x000F#16 = wordXYN c (fieldX w) (fieldY w) n &&& ~~~0x000F#16 := by
  simp only [and_not_lowNibble, fieldClass_wordXYN, fieldX_wordXYN, fieldY_wordXYN, hc]

/-- What the first level of the dispatch does: a class with a second level leaves the word to it, and in every other
class the word decodes, to an instruction whose encoding agrees with it (R105, R107). -/
theorem decode_cases (w : Word) :
    (fieldClass w = 0x0#4 ∧ decode w = decodeClass0 w) ∨ (fieldClass w = 0x8#4 ∧ decode w = decodeClass8 w) ∨
    (fieldClass w = 0xE#4 ∧ decode w = decodeClassE w) ∨ (fieldClass w = 0xF#4 ∧ decode w = decodeClassF w) ∨
    (fieldClass w ∉ [0x0#4, 0x8#4, 0xE#4, 0xF#4] ∧
      ∃ i, decode w = .instr i ∧ AgreeOutsideIgnored i w (encode i)) := by
  unfold decode
  split
  case h_1 hc => exact .inl ⟨hc, rfl⟩
  case h_9 hc => exact .inr (.inl ⟨hc, rfl⟩)
  case h_15 hc => exact .inr (.inr (.inl ⟨hc, rfl⟩))
  case h_16 =>
    have hc : fieldClass w = 0xF#4 := by
      generalize fieldClass w = c at *
      revert c
      decide
    exact .inr (.inr (.inr (.inl ⟨hc, rfl⟩)))
  all_goals refine .inr (.inr (.inr (.inr ⟨by simp [*], _, rfl, ?_⟩)))
  case h_2 hc | h_3 hc | h_11 hc | h_12 hc => exact agree_encode_of_eq (wordNNN_fields hc)
  case h_4 hc | h_5 hc | h_7 hc | h_8 hc | h_13 hc => exact agree_encode_of_eq (wordXKK_fields hc rfl)
  case h_14 hc => exact agree_encode_of_eq (wordXYN_fields hc rfl)
  case h_6 hc | h_10 hc => exact agree_wordXYN hc

/-- A word that decodes to an instruction agrees with the encoder's word of it. -/
theorem agree_encode_of_decode {w : Word} {i : Instr} (h : decode w = .instr i) :
    AgreeOutsideIgnored i w (encode i) := by
  obtain ⟨hc, hd⟩ | ⟨hc, hd⟩ | ⟨hc, hd⟩ | ⟨hc, hd⟩ | ⟨-, j, hd, hj⟩ := decode_cases w <;> rw [hd] at h
  · have hmask : w &&& ~~~0x0F00#16 = wordXKK 0x0 0 (fieldKK w) := (and_byteMask w).trans (hc ▸ rfl)
    unfold decodeClass0 at h
    split at h <;> cases h
    all_goals
      next hk =>
      rw [AgreeOutsideIgnored, ignoredBits, hmask, hk]
      rfl
  · unfold decodeClass8 at h
    split at h <;> cases h
    all_goals
      next hn => exact agree_encode_of_eq (wordXYN_fields hc hn)
  · unfold decodeClassE at h
    split at h <;> cases h
    all_goals
      next hk => exact agree_encode_of_eq (wordXKK_fields hc hk)
  · unfold decodeClassF at h
    split at h <;> cases h
    all_goals
      next hk => exact agree_encode_of_eq (wordXKK_fields hc hk)
  · cases h
    exact hj

theorem eq_of_agree {w w' : Word} {i : Instr} (hi : ignoredBits i = 0#16) (h : AgreeOutsideIgnored i w w') :
    w = w' := by
  rwa [AgreeOutsideIgnored, hi, BitVec.not_zero, BitVec.and_allOnes, BitVec.and_allOnes] at h

theorem fields_of_agree_lowNibble {w w' : Word} (h : w &&& ~~~0x000F#16 = w' &&& ~~~0x000F#16) :
    w &&& 0xF000#16 = w' &&& 0xF000#16 ∧ fieldX w = fieldX w' ∧ fieldY w = fieldY w' := by
  rw [and_not_lowNibble, and_not_lowNibble] at h
  have hc : fieldClass w = fieldClass w' := by simpa using congrArg fieldClass h
  exact ⟨by rw [and_classMask, and_classMask, hc], by simpa using congrArg fieldX h, by simpa using congrArg fieldY h⟩

/-- The decoder looks at no ignored bit: a word decodes as any word it agrees with. -/
theorem decode_of_agree {w w' : Word} {i : Instr} (h : decode w = .instr i) (hw : AgreeOutsideIgnored i w' w) :
    decode w' = .instr i := by
  have hrow := and_mask_of_decode h
  cases i
  case cls => exact decode_row_cls (hw.trans hrow)
  case ret => exact decode_row_ret (hw.trans hrow)
  case seReg =>
    obtain ⟨hmask, hx, hy⟩ := fields_of_agree_lowNibble hw
    rw [decode_row_seReg (hmask.trans hrow), hx, hy, ← decode_row_seReg hrow, h]
  case sneReg =>
    obtain ⟨hmask, hx, hy⟩ := fields_of_agree_lowNibble hw
    rw [decode_row_sneReg (hmask.trans hrow), hx, hy, ← decode_row_sneReg hrow, h]
  all_goals rwa [eq_of_agree rfl hw]

theorem agree_or_ignored (i : Instr) (w m : Word) : AgreeOutsideIgnored i (w ||| (m &&& ignoredBits i)) w := by
  have hzero : m &&& ignoredBits i &&& ~~~ignoredBits i = 0#16 := by
    rw [BitVec.and_assoc, BitVec.and_not_self]
    exact BitVec.and_zero
  rw [AgreeOutsideIgnored, BitVec.and_or_distrib_right, hzero, BitVec.or_zero]

/-! ### Unknown words (R109) -/

section
variable (w : Word)

theorem fieldKK_eq_iff (b : Byte) : fieldKK w = b ↔ w.toNat % 256 = b.toNat := by
  rw [← fieldKK_toNat, BitVec.toNat_inj]

theorem fieldN_eq_iff (b : Nibble) : fieldN w = b ↔ w.toNat % 16 = b.toNat := by
  rw [← fieldN_toNat, BitVec.toNat_inj]

theorem fieldClass_eq_iff (c : BitVec 4) : fieldClass w = c ↔ w.toNat / 4096 = c.toNat := by
  rw [← fieldClass_toNat, BitVec.toNat_inj]

/-! In an arm of the second level that names a byte the word's low byte is that one; in the last it is none of them. -/

theorem decodeClass0_unknown : decodeClass0 w = .unknown w ↔ w.toNat % 256 ∉ [0xE0, 0xEE] := by
  unfold decodeClass0
  split <;> simp_all [fieldKK_eq_iff]

theorem decodeClass8_unknown :
    decodeClass8 w = .unknown w ↔ w.toNat % 16 ∈ [0x8, 0x9, 0xA, 0xB, 0xC, 0xD, 0xF] := by
  unfold decodeClass8
  split
  case h_10 =>
    refine iff_of_true rfl ?_
    rw [← fieldN_toNat]
    generalize fieldN w = n at *
    revert n
    decide
  all_goals
    next hn => simp [← fieldN_toNat, hn]

theorem decodeClassE_unknown : decodeClassE w = .unknown w ↔ w.toNat % 256 ∉ [0x9E, 0xA1] := by
  unfold decodeClassE
  split <;> simp_all [fieldKK_eq_iff]

theorem decodeClassF_unknown :
    decodeClassF w = .unknown w ↔
      w.toNat % 256 ∉ [0x07, 0x0A, 0x15, 0x18, 0x1E, 0x29, 0x33, 0x55, 0x65] := by
  unfold decodeClassF
  split <;> simp_all [fieldKK_eq_iff]

end

/-! ### The statements -/

/-- Settles O3, by the round trip of each constructor. -/
theorem decodeOfEncode : Obligations.DecodeOfEncode := decode_encode

/-- Settles O4: a selected row is the row of what the word decodes to, and a word decodes to one thing. -/
theorem decodeFollowsOpcodeMap : Obligations.DecodeFollowsOpcodeMap := by
  unfold Obligations.DecodeFollowsOpcodeMap
  refine ⟨fun w i => and_mask_of_decode, fun w u hu => ⟨eq_of_decode_unknown hu, fun i hi => ?_⟩,
    fun w i j hi hj => ?_⟩
  · obtain ⟨k, hk, -⟩ := decode_of_and_mask hi
    cases hu.symm.trans hk
  · obtain ⟨k, hk, hki⟩ := decode_of_and_mask hi
    obtain ⟨l, hl, hlj⟩ := decode_of_and_mask hj
    cases hk.symm.trans hl
    exact hki.symm.trans hlj

/-- Settles O5, class by class: of the second levels each leaves out the words R109 lists. -/
theorem unknownWordsAreThoseListed : Obligations.UnknownWordsAreThoseListed := by
  unfold Obligations.UnknownWordsAreThoseListed
  intro w
  obtain ⟨hc, hd⟩ | ⟨hc, hd⟩ | ⟨hc, hd⟩ | ⟨hc, hd⟩ | ⟨hc, i, hd, -⟩ := decode_cases w <;> rw [hd]
  · simp [decodeClass0_unknown, (fieldClass_eq_iff w _).mp hc]
  · simp [decodeClass8_unknown, (fieldClass_eq_iff w _).mp hc]
  · simp [decodeClassE_unknown, (fieldClass_eq_iff w _).mp hc]
  · simp [decodeClassF_unknown, (fieldClass_eq_iff w _).mp hc]
  · simp_all [fieldClass_eq_iff]

/-- Settles O6: the encoder's word agrees with every word of its instruction, and words that agree decode alike. -/
theorem ignoredBitsExactly : Obligations.IgnoredBitsExactly := by
  unfold Obligations.IgnoredBitsExactly
  exact ⟨fun w i h => agree_encode_of_decode h,
    fun i m => decode_of_agree (decode_encode i) (agree_or_ignored i (encode i) m), fun x y z s => ⟨rfl, rfl⟩⟩

/-- Settles O1: each word is evaluated. -/
theorem specWordsDecode : Obligations.SpecWordsDecode := by
  unfold Obligations.SpecWordsDecode
  decide

/-- Settles O2: a shift is a division and a mask of low bits a remainder. -/
theorem fieldExtraction : Obligations.FieldExtraction := by
  unfold Obligations.FieldExtraction
  intro w
  have hclass : w.toNat / 4096 % 16 = w.toNat / 4096 := Nat.mod_eq_of_lt (by omega)
  have hnibble (n : Nat) : n &&& 0xF = n % 16 := Nat.and_two_pow_sub_one_eq_mod n 4
  have hbyte (n : Nat) : n &&& 0xFF = n % 256 := Nat.and_two_pow_sub_one_eq_mod n 8
  have haddr (n : Nat) : n &&& 0xFFF = n % 4096 := Nat.and_two_pow_sub_one_eq_mod n 12
  simp only [fieldClass_toNat, fieldX_val, fieldY_val, fieldKK_toNat, fieldNNN_toNat, fieldN_toNat, hnibble, hbyte,
    haddr, Nat.shiftRight_eq_div_pow, Nat.reducePow, hclass, and_self]

end Sys2Proof
end

section
/-! PROOFS. The statements about the step (40_dispatch.md), with the lemmas they rest on. -/

namespace Sys2Proof.Machine

variable {s t : State} {i : Instr}

/-! ### The answer of a `step()` -/

theorem stepCall_of_running (hl : s.loaded = true) (hm : s.mode = .running) : stepCall s = runningStep s := by
  simp only [stepCall, hl, hm, if_true]

theorem stepCall_of_awaiting {r : Reg} (hl : s.loaded = true) (hm : s.mode = .awaitingKey r) :
    stepCall s = .next (awaitStep r s) := by
  simp only [stepCall, hl, hm, if_true]

theorem stepCall_of_unloaded (hl : ¬ s.loaded = true) : stepCall s = .refused .stepBeforeLoad :=
  if_neg hl

/-- Where a `step()` in Running mode of a loaded block is next, its call is a running step. -/
theorem stepCall_of_ready (h : Ready s) : stepCall s.takeCall.2 = runningStep s.takeCall.2 := by
  obtain ⟨hl, hm, -⟩ := h
  exact stepCall_of_running (by rwa [takeCall_loaded]) (by rwa [takeCall_mode])

/-- A fetch that would touch an address outside memory is an error (R72, R141). -/
theorem runningStep_of_badAddress {a : Nat} (h : badAddress s.pc.toNat 2 = some a) :
    runningStep s = .fault (.addressOutOfRange a) := by
  simp only [runningStep, h]

/-- A running step whose two bytes lie in memory and select no instruction follows the policy (R144). -/
theorem runningStep_of_unknown {w : Word} (hp : s.pc.toNat ≤ 4094) (h : decode s.fetchWord = .unknown w) :
    runningStep s = unknownStep w s := by
  have hb : badAddress s.pc.toNat 2 = none := badAddress_eq_none.mpr fun k hk => by unfold maxAddress; omega
  simp only [runningStep, hb, h]

theorem stepCall_of_badAddress {a : Nat} (h : Ready s) (hb : badAddress s.pc.toNat 2 = some a) :
    stepCall s.takeCall.2 = .fault (.addressOutOfRange a) := by
  rw [stepCall_of_ready h, runningStep_of_badAddress (by rwa [takeCall_pc])]

theorem stepCall_of_decode (h : Ready s) (hp : s.pc.toNat ≤ 4094) (hd : decode s.fetchWord = .instr i) :
    stepCall s.takeCall.2 = exec i (s.takeCall.2.setPc (s.pc + 2)) := by
  rw [stepCall_of_ready h, runningStep_of_decode (by rwa [takeCall_pc]) (by rwa [takeCall_fetchWord]), takeCall_pc]

theorem stepCall_of_unknown {w : Word} (h : Ready s) (hp : s.pc.toNat ≤ 4094)
    (hd : decode s.fetchWord = .unknown w) : stepCall s.takeCall.2 = unknownStep w s.takeCall.2 := by
  rw [stepCall_of_ready h, runningStep_of_unknown (by rwa [takeCall_pc]) (by rwa [takeCall_fetchWord])]

/-! ### What becomes of the answer -/

/-- To a host that halts on errors every answer stands as it is (R343). -/
theorem react_of_stop (h : s.onError = .stop) (r : Result) : react s r = r := by
  cases r <;> simp only [react, h]

/-- A host that goes on gets a next state from every answer but a refusal (R361). -/
theorem react_of_goOn (h : s.onError = .goOn) {r : Result} (hr : ∀ q, r ≠ .refused q) :
    ∃ t, react s r = .next t := by
  cases r with
  | next t => exact ⟨t, rfl⟩
  | fault e => exact ⟨s.emit (.error e), by simp only [react, h]⟩
  | refused q => exact absurd rfl (hr q)

/-- A `step()` that answers a next state is the machine step. -/
theorem step_of_stepCall (hn : StepIsNext s) (h : stepCall s.takeCall.2 = .next t) : step s = .next t := by
  rw [step_of_stepIsNext hn, h]
  rfl

/-- To a host that halts on errors the machine step is the `step()`. -/
theorem step_of_stop (hn : StepIsNext s) (h : s.onError = .stop) : step s = stepCall s.takeCall.2 := by
  rw [step_of_stepIsNext hn, react_of_stop (by rwa [takeCall_onError])]

/-- Settles O7: the call's answer is that of exec, and the host reacts to it. -/
theorem stepRunsDecodedInstruction : Obligations.StepRunsDecodedInstruction := by
  unfold Obligations.StepRunsDecodedInstruction
  intro s i h hp hd
  have hcall := stepCall_of_decode h hp hd
  obtain ⟨-, -, hn⟩ := h
  exact ⟨fun hstop => (step_of_stop hn hstop).trans hcall, fun t ht => step_of_stepCall hn (hcall.trans ht),
    fun e he => returnsError_of_stepCall hn (hcall.trans he)⟩

/-! ### The fetch -/

theorem toNat_fetchWord (s : State) :
    s.fetchWord.toNat = (s.readByte s.pc.toNat).toNat * 256 + (s.readByte (s.pc.toNat + 1)).toNat :=
  append_toNat _ _

/-- The word at PC = 4095 ends outside memory, at 4096; above it the word begins outside. -/
theorem badAddress_fetch {p : Nat} (h : 4095 ≤ p) : badAddress p 2 = some (max p 4096) :=
  if_neg (by unfold maxAddress; omega)

/-- Settles O10: the range check names PC or 4096, and a word inside memory runs as O7 says. -/
theorem fetchChecksAndAdvances : Obligations.FetchChecksAndAdvances := by
  unfold Obligations.FetchChecksAndAdvances
  intro s h
  have hfault {a : Nat} (hb : badAddress s.pc.toNat 2 = some a) : ReturnsError s (.addressOutOfRange a) :=
    returnsError_of_stepCall h.2.2 (stepCall_of_badAddress h hb)
  refine ⟨fun hp => hfault ?above, fun hp => hfault ?top, fun hp => ⟨s.fetchWord, toNat_fetchWord s, fun i hd => ?runs⟩⟩
  case above => rw [badAddress_fetch hp.le, max_eq_left hp]
  case top => rw [hp, badAddress_fetch le_rfl]; rfl
  case runs =>
    obtain ⟨hstop, hnext, -⟩ := stepRunsDecodedInstruction s i h (Nat.le_of_lt_succ hp) hd
    exact ⟨s.takeCall.2.setPc (s.pc + 2), rfl, BitVec.toNat_add _ _, hstop, hnext⟩

/-! ### Unknown words -/

/-- Settles O11, by the policy. -/
theorem unknownOpcodeFollowsPolicy : Obligations.UnknownOpcodeFollowsPolicy := by
  unfold Obligations.UnknownOpcodeFollowsPolicy
  intro s w h hp hd
  have hcall := stepCall_of_unknown h hp hd
  obtain ⟨-, -, hn⟩ := h
  refine ⟨eq_of_decode_unknown hd, ?_⟩
  rw [unknownStep, takeCall_cfg] at hcall
  cases hpol : s.cfg.unknownOpcodePolicy with
  | halt =>
    rw [hpol] at hcall
    have herr := returnsError_of_stepCall hn hcall
    exact ⟨herr.1, fun _ => herr, nofun⟩
  | skip =>
    rw [hpol] at hcall
    have hstep := step_of_stepCall hn hcall
    refine ⟨?reported, nofun, fun _ => ⟨_, hstep, ?moved, rfl, takeCall_readByte s⟩⟩
    case reported => rw [hstep]; simp [reply]
    case moved => rw [emit_pc, setPc_pc, takeCall_pc]; exact BitVec.toNat_add _ _

/-! ### The await step -/

/-- An await step without a qualifying key takes the snapshot and nothing else (R145). -/
theorem awaitStep_of_none {r : Reg} (h : ∀ k, ¬ KeyQualifies s k) : awaitStep r s = s.snapshotKeys :=
  if_pos (qualifyingKeys_eq_zero.mpr h)

/-- An await step with a qualifying key stores one and ends the wait (R145). -/
theorem awaitStep_of_some {r : Reg} (h : ∃ k, KeyQualifies s k) :
    ∃ k, KeyQualifies s k ∧ awaitStep r s = (s.setV r (BitVec.ofNat 8 k)).setMode .running := by
  have hq : s.qualifyingKeys ≠ 0 := fun e => not_exists.mpr (qualifyingKeys_eq_zero.mp e) h
  exact ⟨_, keyQualifies_iff.mpr (pickKey_mem s.cfg hq), if_neg hq⟩

/-- A qualifying key is the one stored where pickKey's table lists it for the qualifying set (R145). -/
theorem step_of_awaiting_listed {r k : Reg} (hl : s.loaded = true) (hn : StepIsNext s) (hm : s.mode = .awaitingKey r)
    (hk : KeyQualifies s k) (htable : s.cfg.pickKey.lookup s.qualifyingKeys = some k) :
    ∃ t, step s = .next t ∧ t.getV r = BitVec.ofNat 8 k := by
  have hstep := step_of_awaiting hl hn hm
  obtain ⟨-, hpick⟩ := pickKeyIsAParameter s r _ hl hn hm ⟨k, hk⟩ hstep
  exact ⟨_, hstep, hpick k htable hk⟩

/-- The state under the same parameters but for pickKey's table. -/
def State.withPickKey (s : State) (table : List (KeyMap × Reg)) : State :=
  { s with cfg := { s.cfg with pickKey := table } }

theorem stepIsNext_withPickKey {table : List (KeyMap × Reg)} (h : StepIsNext s) : StepIsNext (s.withPickKey table) :=
  (stepIsNext_congr (s := s) (t := s.withPickKey table) rfl rfl).mpr h

/-- Settles O12: the await step in its two cases, and pickKey by a table of one entry. -/
theorem Dispatch.awaitStep : Obligations.AwaitStep := by
  unfold Obligations.AwaitStep
  intro s r hl hn hm
  have hstep := step_of_awaiting hl hn hm
  have hnone (h : ∀ k, ¬ KeyQualifies s k) : step s = .next s.takeCall.2.snapshotKeys := by
    rw [hstep, awaitStep_of_none fun k => keyQualifies_takeCall.not.mpr (h k)]
  refine ⟨fun h htrig => ?_, fun h htrig => ?_, fun ⟨k, hk⟩ => ?_, fun k hk => ⟨[(s.qualifyingKeys, ⟨k, hk.1⟩)], ?_⟩⟩
  · rw [hnone h, State.snapshotKeys, takeCall_cfg, htrig]
  · rw [hnone h, State.snapshotKeys, takeCall_cfg, htrig, takeCall_keys]
    rfl
  · obtain ⟨k, hk, heq⟩ := awaitStep_of_some (r := r) ⟨k, keyQualifies_takeCall.mpr hk⟩
    rw [heq] at hstep
    refine ⟨k, _, keyQualifies_takeCall.mp hk, hstep, ?_, fun q hq => ?_, rfl, takeCall_readByte s⟩
    · exact (getV_setV _ _ _ _).trans (if_pos rfl)
    · exact ((getV_setV _ _ _ _).trans (if_neg hq)).trans (takeCall_getV s q)
  · exact step_of_awaiting_listed (s := s.withPickKey _) (k := ⟨k, hk.1⟩) hl (stepIsNext_withPickKey hn) hm hk
      List.lookup_cons_self

end Sys2Proof.Machine
end

section
/-! PROOFS. The statements about the sequence of host calls and the end of a run (40_dispatch.md), with the lemmas they
rest on. -/

namespace Sys2Proof.Machine

variable {s t : State} {i : Instr}

/-! ### A loaded block answers every call -/

theorem exec_ne_refused (i : Instr) (s : State) (q : Refusal) : exec i s ≠ .refused q := by
  intro h
  cases i
  case ret | call | ldB | storeRegs | loadRegs | drw =>
    simp only [exec, execRet, execCall, execLdB, execStoreRegs, execLoadRegs, execDrw] at h
    split at h <;> cases h
  all_goals cases h

theorem runningStep_ne_refused (s : State) (q : Refusal) : runningStep s ≠ .refused q := by
  unfold runningStep
  split
  · nofun
  · split
    · unfold unknownStep; split <;> nofun
    · exact exec_ne_refused _ _ q

/-- No call of the host into a loaded block is refused (R394). -/
theorem call_ne_refused (hl : s.loaded = true) (c : HostCall) (q : Refusal) : call c s ≠ .refused q := by
  cases c with
  | step =>
    cases hm : s.mode with
    | running => rw [call, stepCall_of_running hl hm]; exact runningStep_ne_refused s q
    | awaitingKey r => rw [call, stepCall_of_awaiting hl hm]; nofun
  | tick => nofun
  | load image => simp only [call]; split <;> nofun
  | setKeys k => nofun

/-- With a host that goes on after errors every machine step of a loaded block answers a next state (R361). -/
theorem step_of_goOn (hl : s.loaded = true) (ho : s.onError = .goOn) : ∃ t, step s = .next t :=
  react_of_goOn (by rwa [takeCall_onError]) (call_ne_refused (by rwa [takeCall_loaded]) _)

/-! ### The run of a host -/

/-- The states of the run from `s`, by number of host calls made. -/
def hostRun (s : State) : Nat → State
  | 0 => s
  | n + 1 => stateAfter (hostRun s n) (step (hostRun s n))

theorem hostRun_succ {n : Nat} (h : step (hostRun s n) = .next t) : hostRun s (n + 1) = t := by
  rw [hostRun, h]
  rfl

theorem takeCall_of_free {n : Nat} (hc : s.calls = []) (hp : s.plan = .free n) :
    s.takeCall = (Config.freeCall n, s.setPlan (.free (n + 1))) := by
  simp only [State.takeCall, hc, hp]

section
variable (hl : s.loaded = true) (ho : s.onError = .goOn)
include hl ho

/-- The block stays loaded and the host goes on, through the whole run. -/
theorem hostRun_keeps (n : Nat) : (hostRun s n).loaded = true ∧ (hostRun s n).onError = .goOn := by
  induction n with
  | zero => exact ⟨hl, ho⟩
  | succ n ih =>
    obtain ⟨hl, ho⟩ := ih
    obtain ⟨t, ht⟩ := step_of_goOn hl ho
    obtain ⟨-, -, honError, hloaded⟩ := step_keeps ht
    rw [hostRun_succ ht]
    exact ⟨hloaded hl, honError.trans ho⟩

theorem step_hostRun (n : Nat) : step (hostRun s n) = .next (hostRun s (n + 1)) := by
  obtain ⟨hl, ho⟩ := hostRun_keeps hl ho n
  obtain ⟨t, ht⟩ := step_of_goOn hl ho
  rw [hostRun_succ ht, ht]

/-- After `n` calls the queue is the one at the start without its first `n`. -/
theorem hostRun_calls {n : Nat} (hn : n ≤ s.calls.length) : (hostRun s n).calls = s.calls.drop n := by
  induction n with
  | zero => rfl
  | succ n ih =>
    have hqueue := (ih (Nat.le_of_succ_le hn)).trans (List.drop_eq_getElem_cons hn)
    obtain ⟨hcalls, -⟩ := step_keeps (step_hostRun hl ho n)
    rw [hcalls, takeCall_of_queued _ hqueue]
    rfl

/-- After `n` calls of a free plan `n` more are taken, and none is queued. -/
theorem hostRun_free {m : Nat} (hc : s.calls = []) (hp : s.plan = .free m) (n : Nat) :
    (hostRun s n).calls = [] ∧ (hostRun s n).plan = .free (m + n) := by
  induction n with
  | zero => exact ⟨hc, hp⟩
  | succ n ih =>
    obtain ⟨hc, hp⟩ := ih
    obtain ⟨hcalls, hplan, -⟩ := step_keeps (step_hostRun hl ho n)
    rw [hcalls, hplan, takeCall_of_free hc hp]
    exact ⟨hc, rfl⟩

end

/-- Settles O9: the run of the host takes the n-th queued call, or the plan's n-th free one, at its n-th step. -/
theorem everyCallSequenceRuns : Obligations.EveryCallSequenceRuns := by
  unfold Obligations.EveryCallSequenceRuns
  intro s hl ho
  refine ⟨⟨hostRun s, rfl, fun n hn => ⟨?queued, step_hostRun hl ho n⟩⟩,
    fun m hc hp => ⟨hostRun s, rfl, fun n => ⟨?free, step_hostRun hl ho n⟩⟩⟩
  case queued =>
    have hqueue := (hostRun_calls hl ho hn.le).trans (List.drop_eq_getElem_cons hn)
    rw [takeCall_of_queued _ hqueue]
  case free =>
    obtain ⟨hc, hp⟩ := hostRun_free hl ho hc hp n
    rw [takeCall_of_free hc hp]

/-! ### The end of a run -/

/-- Settles O33: the jump puts PC back where the fetch found it. -/
theorem selfJumpKeepsState : Obligations.SelfJumpKeepsState := by
  unfold Obligations.SelfJumpKeepsState
  intro s ⟨hl, hm, hp, nnn, hd, htarget⟩ hn
  have hcall := stepCall_of_decode ⟨hl, hm, hn⟩ (Nat.le_of_lt_succ hp) hd
  have hback : (s.takeCall.2.setPc (s.pc + 2)).setPc (zextAddr nnn) = s.takeCall.2 := by
    rw [htarget, ← takeCall_pc]
    rfl
  exact step_of_stepCall hn (hcall.trans (congrArg Host.Outcome.next hback))

end Sys2Proof.Machine
end

section
/-! PROOFS. The statements about the timers' independence of the step (40_dispatch.md R148), with the lemmas they rest
on. -/

namespace Sys2Proof.Machine

variable {s t : State} {i : Instr}

/-! ### Both timers at given values -/

/-- The instruction is none of the three that read or write DT and ST (R148). -/
def NoTimerInstr (i : Instr) : Prop := ∀ x, i ≠ .ldVxDT x ∧ i ≠ .ldDTVx x ∧ i ≠ .ldSTVx x

/-- The state with both timers at given values. -/
def State.setTimers (s : State) (d e : Byte) : State := (s.setDT d).setST e

theorem tick_eq_setTimers (s : State) : tick s = s.setTimers (countDown s.dt) (countDown s.st) := rfl

section
variable (s : State) (d e : Byte)

@[simp] theorem setTimers_pc : (s.setTimers d e).pc = s.pc := rfl
@[simp] theorem setTimers_stack : (s.setTimers d e).stack = s.stack := rfl
@[simp] theorem setTimers_cfg : (s.setTimers d e).cfg = s.cfg := rfl
@[simp] theorem setTimers_fetchWord : (s.setTimers d e).fetchWord = s.fetchWord := rfl
@[simp] theorem setTimers_base : (s.setTimers d e).base = s.base := rfl

theorem skipIf_setTimers (c : Bool) : (s.setTimers d e).skipIf c = (s.skipIf c).setTimers d e := by
  rw [skipIf_eq, skipIf_eq]
  rfl

theorem snapshotKeys_setTimers : (s.setTimers d e).snapshotKeys = s.snapshotKeys.setTimers d e := by
  rw [snapshotKeys_eq, snapshotKeys_eq]
  rfl

/-- A key read gives the same level whatever the timers hold, and leaves them. -/
theorem keyDown_setTimers (v : Byte) :
    (s.setTimers d e).keyDown v = ((s.keyDown v).1, (s.keyDown v).2.setTimers d e) := by
  simp only [State.keyDown, setTimers_cfg]
  split
  · rfl
  · cases s.cfg.keyIndexPolicy <;> rfl

theorem push_setTimers (a : Word) : (s.setTimers d e).push a = (s.push a).map (State.setTimers · d e) := by
  rw [State.push, State.push, setTimers_stack, apply_ite (Option.map _)]
  rfl

theorem pop_setTimers : (s.setTimers d e).pop = s.pop.map fun p => (p.1, p.2.setTimers d e) := by
  simp only [State.pop, setTimers_stack]
  cases s.stack.getLast? <;> rfl

end

/-- Settles O31, by cases on the instruction: each shared operation commutes with setting the timers. -/
theorem timersAreOutOfReach : Obligations.TimersAreOutOfReach := by
  unfold Obligations.TimersAreOutOfReach
  intro i s d e hi
  change exec i (s.setTimers d e) = mapNext (State.setTimers · d e) (exec i s)
  cases i
  case ldVxDT x => exact absurd rfl (hi x).1
  case ldDTVx x => exact absurd rfl (hi x).2.1
  case ldSTVx x => exact absurd rfl (hi x).2.2
  case ret =>
    simp only [exec, execRet, pop_setTimers]
    cases s.pop <;> rfl
  case call =>
    simp only [exec, execCall, setTimers_pc, push_setTimers]
    cases s.push s.pc <;> rfl
  case seImm | sneImm | seReg | sneReg => exact congrArg Host.Outcome.next (skipIf_setTimers _ _ _ _)
  case skp | sknp =>
    simp only [exec, execSkp, execSknp, keyDown_setTimers, skipIf_setTimers]
    rfl
  case ldVxK x => exact congrArg Host.Outcome.next (snapshotKeys_setTimers (s.setMode (.awaitingKey x)) d e)
  case ldB | storeRegs | loadRegs | drw =>
    simp only [exec, execLdB, execStoreRegs, execLoadRegs, execDrw, setTimers_base]
    split <;> rfl
  all_goals rfl

/-! ### A tick and a step -/

/-- What leaves the timers alone commutes with a tick where it commutes with setting them. -/
theorem mapNext_setTimers_eq_tick {r : Result} (h : ∀ t, r = .next t → t.dt = s.dt ∧ t.st = s.st) :
    mapNext (State.setTimers · (countDown s.dt) (countDown s.st)) r = mapNext tick r := by
  cases r with
  | next t =>
    obtain ⟨hdt, hst⟩ := h t rfl
    rw [mapNext, mapNext, tick_eq_setTimers, hdt, hst]
  | fault e => rfl
  | refused q => rfl

/-- An instruction that is no timer instruction leaves DT and ST (R148). -/
theorem exec_keeps_timers (hi : NoTimerInstr i) (h : exec i s = .next t) : t.dt = s.dt ∧ t.st = s.st := by
  obtain ⟨-, -, -, hdt, hst, -⟩ := writersOfOtherState i s t h
  cases i
  case ldVxDT x => exact absurd rfl (hi x).1
  case ldDTVx x => exact absurd rfl (hi x).2.1
  case ldSTVx x => exact absurd rfl (hi x).2.2
  all_goals exact ⟨hdt, hst⟩

theorem exec_tick (hi : NoTimerInstr i) (s : State) : exec i (tick s) = mapNext tick (exec i s) :=
  (timersAreOutOfReach i s _ _ hi).trans (mapNext_setTimers_eq_tick fun _ => exec_keeps_timers hi)

theorem awaitStep_tick (r : Reg) (s : State) : awaitStep r (tick s) = tick (awaitStep r s) := by
  unfold awaitStep
  rw [apply_ite tick, tick_eq_setTimers, snapshotKeys_setTimers, snapshotKeys_eq]
  rfl

theorem unknownStep_tick (w : Word) (s : State) : unknownStep w (tick s) = mapNext tick (unknownStep w s) := by
  simp only [unknownStep, tick_eq_setTimers, setTimers_cfg]
  cases s.cfg.unknownOpcodePolicy <;> rfl

theorem runningStep_tick (h : ∀ i, decode s.fetchWord = .instr i → NoTimerInstr i) :
    runningStep (tick s) = mapNext tick (runningStep s) := by
  simp only [runningStep, tick_eq_setTimers s, setTimers_pc, setTimers_fetchWord]
  cases badAddress s.pc.toNat 2 with
  | some a => rfl
  | none =>
    cases hd : decode s.fetchWord with
    | unknown w => exact unknownStep_tick w s
    | instr i => exact exec_tick (h i hd) (s.setPc (s.pc + 2))

/-- Settles O32, by the mode: an await step reads no timer, and a running step runs no timer instruction. -/
theorem tickCommutesWithStep : Obligations.TickCommutesWithStep := by
  unfold Obligations.TickCommutesWithStep
  intro s h
  by_cases hl : s.loaded = true
  · cases hm : s.mode with
    | awaitingKey r =>
      rw [stepCall_of_awaiting (s := tick s) hl hm, stepCall_of_awaiting hl hm, awaitStep_tick]
      rfl
    | running =>
      rw [stepCall_of_running (s := tick s) hl hm, stepCall_of_running hl hm]
      refine runningStep_tick fun i hd x => ?_
      obtain ⟨hVxDT, hDTVx, hSTVx⟩ := h hm x
      exact ⟨fun e => hVxDT (e ▸ hd), fun e => hDTVx (e ▸ hd), fun e => hSTVx (e ▸ hd)⟩
  · rw [stepCall_of_unloaded (s := tick s) hl, stepCall_of_unloaded hl]
    rfl

end Sys2Proof.Machine
end

section
/-! PROOFS. The statements about control flow (41_control_flow.md), with the lemmas they rest on. -/

namespace Sys2Proof.Machine

variable {s : State} {i : Instr}

/-! ### Jumps -/

/-- Settles O35: both jumps set PC, and the second's sum does not wrap (`toNat_jpV0_target`). -/
theorem jumps : Obligations.Jumps := by
  unfold Obligations.Jumps
  refine ⟨⟨fun _ => decode_row_jp, fun _ => decode_row_jpV0⟩, fun nnn s => ?jp, fun nnn s => ?jpV0⟩
  case jp => exact ⟨_, rfl, toNat_zextAddr nnn, onlyPc_setPc s _⟩
  case jpV0 => exact ⟨_, rfl, toNat_jpV0_target nnn _, onlyPc_setPc s _⟩

/-! ### Subroutines -/

/-- A `step()` stops where the meaning of its instruction, run at PC + 2, does. -/
theorem stepStops_of_exec {e : Fault} (h : exec i (s.takeCall.2.setPc (s.pc + 2)) = .fault e) :
    StepStops s i e := by
  intro hready hpc hdecode
  obtain ⟨-, -, hfault⟩ := stepRunsDecodedInstruction s i hready hpc hdecode
  exact hfault e h

theorem exec_call_of_room (h : s.stack.length < 16) (nnn : Addr12) :
    exec (.call nnn) s = .next ((s.setStack (s.stack ++ [s.pc])).setPc (zextAddr nnn)) := by
  obtain ⟨-, hpush⟩ := (push_cases s s.pc).resolve_right fun hfull => hfull.1.not_gt h
  simp only [exec, execCall, hpush]

theorem exec_call_of_full (h : s.stack.length = 16) (nnn : Addr12) :
    exec (.call nnn) s = .fault .stackOverflow := by
  obtain ⟨-, hpush⟩ := (push_cases s s.pc).resolve_left fun hroom => hroom.1.ne h
  simp only [exec, execCall, hpush]

theorem exec_ret_of_concat {l : List Word} {a : Word} (h : s.stack = l ++ [a]) :
    exec .ret s = .next ((s.setStack l).setPc a) := by
  obtain ⟨l', a', hs, hpop⟩ := (pop_cases s).resolve_left (by simp [h])
  obtain ⟨rfl, rfl⟩ := List.append_singleton_inj.mp (h.symm.trans hs)
  simp only [exec, execRet, hpop]

theorem exec_ret_of_nil (h : s.stack = []) : exec .ret s = .fault .stackUnderflow := by
  obtain ⟨-, hpop⟩ := (pop_cases s).resolve_right (by simp [h])
  simp only [exec, execRet, hpop]

/-- Settles O36, by whether the stack has room; making the call and the fetch leave it. -/
theorem callPushesReturnAddress : Obligations.CallPushesReturnAddress := by
  unfold Obligations.CallPushesReturnAddress
  refine ⟨fun _ => decode_row_call, fun nnn s => ⟨fun hroom => ?room, fun hfull => ?full⟩⟩
  case room => exact ⟨_, exec_call_of_room hroom nnn, rfl, toNat_zextAddr nnn, rfl, fun _ => rfl⟩
  case full =>
    exact ⟨exec_call_of_full hfull nnn, stepStops_of_exec (exec_call_of_full (by simpa using hfull) nnn)⟩

/-- Settles O37, by whether the stack has an entry; making the call and the fetch leave it. -/
theorem retPopsReturnAddress : Obligations.RetPopsReturnAddress := by
  unfold Obligations.RetPopsReturnAddress
  refine ⟨fun _ => decode_row_ret, fun s => ⟨fun l a hentry => ?entry, fun hempty => ?empty⟩⟩
  case entry => exact ⟨_, exec_ret_of_concat hentry, rfl, fun _ => rfl⟩
  case empty => exact ⟨exec_ret_of_nil hempty, stepStops_of_exec (exec_ret_of_nil (by simpa using hempty))⟩

/-! ### Skips -/

theorem onlyPc_skipIf (s : State) (c : Bool) : OnlyPc s (s.skipIf c) := by
  rw [skipIf_eq]
  exact onlyPc_setPc s _

/-- A skip moves PC past a word where its condition holds (R170). -/
theorem toNat_pc_skipIf_true (s : State) : (s.skipIf true).pc.toNat = (s.pc.toNat + 2) % 65536 :=
  BitVec.toNat_add _ _

/-- What every skip does, for the condition `P` that takes it and the condition `Q` that does not (R170). -/
theorem skip_of_exec {P Q : Prop} {c : Bool} (h : exec i s = .next (s.skipIf c)) (hP : P → c = true)
    (hQ : Q → c = false) :
    ∃ t, exec i s = .next t ∧ OnlyPc s t ∧ (P → t.pc.toNat = (s.pc.toNat + 2) % 65536) ∧ (Q → t.pc = s.pc) := by
  refine ⟨_, h, onlyPc_skipIf s c, fun hp => ?taken, fun hq => ?notTaken⟩
  case taken => rw [hP hp, toNat_pc_skipIf_true]
  case notTaken => rw [hQ hq]; rfl

/-- Settles O39: each of the four is `skipIf` on its comparison. -/
theorem registerSkips : Obligations.RegisterSkips := by
  unfold Obligations.RegisterSkips
  refine ⟨⟨fun _ => decode_row_seImm, fun _ => decode_row_sneImm, fun _ => decode_row_seReg,
    fun _ => decode_row_sneReg⟩, fun x kk s => ?seImm, fun x kk s => ?sneImm, fun x y s => ?seReg,
    fun x y s => ?sneReg⟩
  case seImm | seReg => exact skip_of_exec rfl beq_iff_eq.mpr beq_eq_false_iff_ne.mpr
  case sneImm | sneReg => exact skip_of_exec rfl bne_iff_ne.mpr bne_eq_false_iff_eq.mpr

end Sys2Proof.Machine
end

section
/-! PROOFS. The statements about arithmetic and logic (42_alu.md), with the lemmas they rest on. -/

namespace Sys2Proof.Machine

variable {s : State} {i : Instr} {x : Reg}

/-! ### Instructions that write Vx alone -/

theorem getV_setV_same (s : State) (x : Reg) (b : Byte) : (s.setV x b).getV x = b :=
  (getV_setV s x x b).trans (if_pos rfl)

theorem getV_setV_of_ne {r : Reg} (h : r ≠ x) (b : Byte) : (s.setV x b).getV r = s.getV r :=
  (getV_setV s x r b).trans (if_neg h)

/-- Settles O40: each of the six is one `setV` of its value. -/
theorem registerTransfers : Obligations.RegisterTransfers := by
  unfold Obligations.RegisterTransfers
  refine ⟨⟨fun _ => decode_row_ldImm, fun _ => decode_row_addImm, fun _ => decode_row_ldReg,
    fun _ => decode_row_orReg, fun _ => decode_row_andReg, fun _ => decode_row_xorReg⟩, fun x kk s => ?ldImm,
    fun x kk s => ?addImm, fun x y s => ?ldReg, fun x y s => ?orReg, fun x y s => ?andReg, fun x y s => ?xorReg⟩
  case ldImm | ldReg | orReg | andReg | xorReg => exact ⟨_, rfl, getV_setV_same s x _, onlyRegs_setV s x _⟩
  case addImm =>
    refine ⟨_, rfl, ?_, onlyRegs_setV s x _⟩
    rw [getV_setV_same]
    exact BitVec.toNat_ofNat _ 8

/-! ### Instructions that write VF, then Vx -/

/-- What every flagged instruction does, for its result as a number and what is said of its flag (R200). -/
theorem flagged_of_exec {c : Bool} {b : Byte} {n : Nat} (Flag : Byte → Prop)
    (h : exec i s = .next (s.setFlagThen c x b)) (hb : b.toNat = n) (hc : Flag (flagByte c)) :
    ∃ t, exec i s = .next t ∧ (t.getV x).toNat = n ∧ (x ≠ VF → Flag (t.getV VF)) ∧ OnlyRegs [x, VF] s t := by
  obtain ⟨hx, hVF, honly⟩ := setFlagThen_spec s c x b
  exact ⟨_, h, (congrArg BitVec.toNat hx).trans hb, fun hne => hVF hne ▸ hc, honly⟩

theorem flagByte_decide (p : Prop) [Decidable p] : flagByte (decide p) = if p then 1 else 0 := by
  simp only [flagByte, decide_eq_true_eq]

theorem toNat_flagByte (c : Bool) : (flagByte c).toNat = c.toNat := by
  cases c <;> rfl

/-- The flag of a shift, as a number, is the bit it moves out (R210, R211). -/
theorem toNat_flagByte_bit (a : Byte) (k : Nat) : (flagByte (a.getLsbD k)).toNat = a.toNat / 2 ^ k % 2 :=
  (toNat_flagByte _).trans (Nat.toNat_testBit a.toNat k)

/-- Settles O41: the carry is the comparison of the unsigned sum with 255. -/
theorem addWithCarry : Obligations.AddWithCarry := by
  unfold Obligations.AddWithCarry
  refine ⟨fun _ => decode_row_addReg, fun x y s => ?_⟩
  exact flagged_of_exec (· = _) rfl (BitVec.toNat_ofNat _ 8) (flagByte_decide _)

/-- Settles O42: both orders wrap in `BitVec.ofNat` and compare their operands, minuend first. -/
theorem subtractBothOrders : Obligations.SubtractBothOrders := by
  unfold Obligations.SubtractBothOrders
  refine ⟨⟨fun _ => decode_row_sub, fun _ => decode_row_subn⟩, fun x y s => ?sub, fun x y s => ?subn⟩
  case sub | subn => exact flagged_of_exec (· = _) rfl (BitVec.toNat_ofNat _ 8) (flagByte_decide _)

/-- Settles O43: bit 0 is the remainder of the halving, bit 7 the overflow of the doubling. -/
theorem shiftsByOne : Obligations.ShiftsByOne := by
  unfold Obligations.ShiftsByOne
  refine ⟨⟨fun _ => decode_row_shr, fun _ => decode_row_shl⟩, fun x y s => ?shr, fun x y s => ?shl⟩
  case shr =>
    have hbit : (s.getV x).toNat / 2 ^ 0 % 2 = (s.getV x).toNat % 2 := by rw [pow_zero, Nat.div_one]
    exact flagged_of_exec (·.toNat = _) rfl (BitVec.toNat_ushiftRight _ 1) ((toNat_flagByte_bit _ 0).trans hbit)
  case shl =>
    have hbit : (s.getV x).toNat / 2 ^ 7 % 2 = (s.getV x).toNat / 128 :=
      Nat.mod_eq_of_lt (Nat.div_lt_of_lt_mul (s.getV x).isLt)
    exact flagged_of_exec (·.toNat = _) rfl (BitVec.toNat_shiftLeft.trans (by rw [Nat.shiftLeft_eq]))
      ((toNat_flagByte_bit _ 7).trans hbit)

/-! ### The random byte -/

theorem randomByte_of_queued {b : Byte} {bs : List Byte} (h : s.rng.queue = b :: bs) : s.randomByte = b := by
  rw [State.randomByte, Supply.next, h, List.headD_cons]

theorem drawRandom_queue_of_queued {b : Byte} {bs : List Byte} (h : s.rng.queue = b :: bs) :
    s.drawRandom.rng.queue = bs :=
  congrArg List.tail h

/-- Settles O44: the draw is `randomByte`, and a generator with `b` queued draws `b`. -/
theorem randomMasked : Obligations.RandomMasked := by
  unfold Obligations.RandomMasked
  refine ⟨fun _ => decode_row_rnd, fun x kk s => ?drawn, fun x kk s b => ?every⟩
  case drawn =>
    exact ⟨_, s.randomByte, rfl, getV_setV_same _ x _,
      fun b bs hq => ⟨randomByte_of_queued hq, drawRandom_queue_of_queued hq⟩, rfl,
      fun q hq => getV_setV_of_ne hq _, rfl, fun _ => rfl⟩
  case every => exact ⟨⟨[b], 0⟩, _, rfl, getV_setV_same _ x _⟩

end Sys2Proof.Machine
end

section
/-! PROOFS. The statements about the index register and memory (43_index_memory.md), with the lemmas they rest
on. -/

namespace Sys2Proof.Machine

variable {s : State} {i : Instr} {x : Reg}

/-! ### The range check -/

theorem badAddress_of_fits {a n : Nat} (h : a + n ≤ 4096) : badAddress a n = none :=
  if_pos (.inr h)

/-- The lowest address above 4095 is the first one, or 4096 where the access begins inside memory (R72). -/
theorem badAddress_of_overrun {a n : Nat} (hn : 0 < n) (h : 4096 < a + n) : badAddress a n = some (max a 4096) :=
  if_neg (by unfold maxAddress; omega)

/-- An instruction that checks the `n` bytes from I stops where they overrun memory, and so does its step: making
the call and the fetch leave I. -/
theorem stops_of_overrun {n : Nat}
    (hcheck : ∀ u a, badAddress u.base n = some a → exec i u = .fault (.addressOutOfRange a))
    (hn : 0 < n) (h : 4096 < s.base + n) :
    exec i s = .fault (.addressOutOfRange (max s.base 4096)) ∧
      StepStops s i (.addressOutOfRange (max s.base 4096)) := by
  have hbad := badAddress_of_overrun hn h
  have hbase : (s.takeCall.2.setPc (s.pc + 2)).base = s.base := takeCall_base s
  exact ⟨hcheck s _ hbad, stepStops_of_exec (hcheck _ _ (hbase ▸ hbad))⟩

/-! ### LD [I],Vx -/

theorem exec_storeRegs_of_badAddress (x : Reg) (s : State) (a : Nat) (h : badAddress s.base (x.val + 1) = some a) :
    exec (.storeRegs x) s = .fault (.addressOutOfRange a) := by
  simp only [exec, execStoreRegs, h]

theorem exec_storeRegs_of_fits (h : badAddress s.base (x.val + 1) = none) :
    exec (.storeRegs x) s =
      .next ((s.writeBytes s.base (s.regsUpTo x)).setI (BitVec.ofNat 16 (s.base + x.val + 1))) := by
  simp only [exec, execStoreRegs, h]

/-- Settles O47, by the range check: a store that fits reads back (`readByte_of_execStoreRegs`). -/
theorem storeRegisters : Obligations.StoreRegisters := by
  unfold Obligations.StoreRegisters
  refine ⟨fun _ => decode_row_storeRegs, fun x s => ⟨fun hfits => ?fits, fun hover => ?overrun⟩⟩
  case fits =>
    have hexec := exec_storeRegs_of_fits (badAddress_of_fits (Nat.succ_le_succ hfits))
    refine ⟨_, hexec, readByte_of_execStoreRegs hexec, fun a ha => ?outside, BitVec.toNat_ofNat _ 16, rfl⟩
    case outside => exact readByte_writeBytes_outside s (by rwa [length_regsUpTo])
  case overrun => exact stops_of_overrun (exec_storeRegs_of_badAddress x) (Nat.succ_pos _) (Nat.succ_lt_succ hover)

/-! ### LD Vx,[I] -/

theorem exec_loadRegs_of_badAddress (x : Reg) (s : State) (a : Nat) (h : badAddress s.base (x.val + 1) = some a) :
    exec (.loadRegs x) s = .fault (.addressOutOfRange a) := by
  simp only [exec, execLoadRegs, h]

theorem exec_loadRegs_of_fits (h : badAddress s.base (x.val + 1) = none) :
    exec (.loadRegs x) s = .next ((s.setRegs (loadInto s.v 0 (s.readBytes s.base (x.val + 1)))).setI
      (BitVec.ofNat 16 (s.base + x.val + 1))) := by
  simp only [exec, execLoadRegs, h]

/-- What LD Vx,[I] leaves in each register: the byte at I + k in Vk up to Vx, and the others as they were (R256). -/
theorem getV_setRegs_loadInto (s : State) (a : Nat) (x k : Reg) :
    (s.setRegs (loadInto s.v 0 (s.readBytes a (x.val + 1)))).getV k =
      if k ≤ x then s.readByte (a + k.val) else s.getV k := by
  have hloaded : (0 ≤ k.val ∧ k.val < 0 + (s.readBytes a (x.val + 1)).length) ↔ k ≤ x := by
    rw [length_readBytes, Fin.le_def]
    omega
  simp only [State.getV, setRegs_v, getElem_loadInto _ _ _ _ k.isLt, hloaded, Nat.sub_zero]
  split
  case isTrue hk =>
    have hlen : k.val < (s.readBytes a (x.val + 1)).length := by
      rw [length_readBytes]
      exact Nat.lt_succ_of_le hk
    rw [List.getD_eq_getElem _ _ hlen, getElem_readBytes]
  case isFalse => rfl

/-- Settles O48, by the range check: `getV_setRegs_loadInto` gives every register of a load that fits. -/
theorem loadRegisters : Obligations.LoadRegisters := by
  unfold Obligations.LoadRegisters
  refine ⟨fun _ => decode_row_loadRegs, fun x s => ⟨fun hfits => ?fits, fun hover => ?overrun⟩⟩
  case fits =>
    have hexec := exec_loadRegs_of_fits (badAddress_of_fits (Nat.succ_le_succ hfits))
    have hreg := getV_setRegs_loadInto s s.base x
    exact ⟨_, hexec, fun k hk => (hreg k).trans (if_pos hk), fun k hk => (hreg k).trans (if_neg hk.not_ge),
      BitVec.toNat_ofNat _ 16, rfl, fun _ => rfl⟩
  case overrun => exact stops_of_overrun (exec_loadRegs_of_badAddress x) (Nat.succ_pos _) (Nat.succ_lt_succ hover)

/-! ### LD I, ADD I and LD F -/

/-- Settles O45: each is one `setI`; LD F's product, at most 1275, does not wrap. -/
theorem indexOperations : Obligations.IndexOperations := by
  unfold Obligations.IndexOperations
  refine ⟨⟨fun _ => decode_row_ldI, fun _ => decode_row_addI, fun _ => decode_row_ldF⟩, fun nnn s => ?ldI,
    fun x s => ?addI, fun x s => ?ldF⟩
  case ldI => exact ⟨_, rfl, toNat_zextAddr nnn, onlyI_setI s _⟩
  case addI =>
    refine ⟨_, rfl, ?_, onlyI_setI s _⟩
    rw [setI_i, BitVec.toNat_add, toNat_zextByte]
  case ldF =>
    have hbyte := (s.getV x).isLt
    have hproduct : (s.getV x).toNat * 5 < 2 ^ 16 := by omega
    exact ⟨_, rfl, (BitVec.toNat_ofNat _ 16).trans (Nat.mod_eq_of_lt hproduct), onlyI_setI s _⟩

/-! ### LD B -/

theorem exec_ldB_of_badAddress (x : Reg) (s : State) (a : Nat) (h : badAddress s.base 3 = some a) :
    exec (.ldB x) s = .fault (.addressOutOfRange a) := by
  simp only [exec, execLdB, h]

theorem exec_ldB_of_fits (h : badAddress s.base 3 = none) :
    exec (.ldB x) s = .next (s.writeBytes s.base (bcdDigits (s.getV x))) := by
  simp only [exec, execLdB, h]

/-- Each digit is a byte, and LD B's store reads back digit by digit (R254). -/
theorem toNat_readByte_writeBytes_bcdDigits (s : State) (a : Nat) (v : Byte) :
    ((s.writeBytes a (bcdDigits v)).readByte a).toNat = v.toNat / 100 ∧
      ((s.writeBytes a (bcdDigits v)).readByte (a + 1)).toNat = v.toNat / 10 % 10 ∧
      ((s.writeBytes a (bcdDigits v)).readByte (a + 2)).toNat = v.toNat % 10 := by
  have hbyte := v.isLt
  have hread {k d : Nat} (hk : k < 3) (hdigit : (bcdDigits v)[k] = BitVec.ofNat 8 d) (hd : d < 2 ^ 8) :
      ((s.writeBytes a (bcdDigits v)).readByte (a + k)).toNat = d := by
    rw [readByte_writeBytes_inside s hk, hdigit, BitVec.toNat_ofNat, Nat.mod_eq_of_lt hd]
  exact ⟨hread (k := 0) (by omega) rfl (by omega), hread (by omega) rfl (by omega), hread (by omega) rfl (by omega)⟩

/-- Settles O46, by the range check: the three digits of a store that fits read back. -/
theorem bcdStore : Obligations.BcdStore := by
  unfold Obligations.BcdStore
  refine ⟨fun _ => decode_row_ldB, fun x s => ⟨fun hfits => ?fits, fun hover => ?overrun⟩⟩
  case fits =>
    obtain ⟨hhundreds, htens, hones⟩ := toNat_readByte_writeBytes_bcdDigits s s.base (s.getV x)
    exact ⟨_, exec_ldB_of_fits (badAddress_of_fits (Nat.succ_le_succ hfits)), hhundreds, htens, hones,
      fun _ hout => readByte_writeBytes_outside s hout, rfl⟩
  case overrun => exact stops_of_overrun (exec_ldB_of_badAddress x) (Nat.succ_pos 2) (Nat.succ_lt_succ hover)

end Sys2Proof.Machine
end

section
/-! PROOFS. The statements about the display (44_display.md), with the lemmas they rest on. -/

namespace Sys2Proof.Machine

variable {s t : State} {x y : Reg} {n : Nibble}

/-! ### CLS -/

/-- Settles O50: the display CLS writes is `clearDisplay`. -/
theorem clearScreen : Obligations.ClearScreen := by
  unfold Obligations.ClearScreen
  exact ⟨fun _ => decode_row_cls, fun s => ⟨_, rfl, pixelAt_clearDisplay, rfl, fun _ => rfl⟩⟩

/-! ### DRW -/

/-- The state with the pixels `ps` toggled, the collision in VF and a Present handed out: what a DRW that goes on
leaves (`exec_drw_of_fits`). -/
def State.drawn (s : State) (ps : List Pixel) : State :=
  ((s.setDisplay (xorPixels ps s.display).1).setV VF (flagByte (xorPixels ps s.display).2)).emit .present

@[simp] theorem drawn_display (s : State) (ps : List Pixel) : (s.drawn ps).display = (xorPixels ps s.display).1 := rfl

theorem getV_drawn_VF (s : State) (ps : List Pixel) : (s.drawn ps).getV VF = flagByte (xorPixels ps s.display).2 :=
  getV_setV_same _ VF _

theorem getV_drawn_of_ne {r : Reg} (h : r ≠ VF) (ps : List Pixel) : (s.drawn ps).getV r = s.getV r :=
  getV_setV_of_ne h _

theorem exec_drw_of_badAddress (x y : Reg) (n : Nibble) (s : State) (a : Nat) (h : badAddress s.base n.toNat = some a) :
    exec (.drw x y n) s = .fault (.addressOutOfRange a) := by
  simp only [exec, execDrw, h]

theorem exec_drw_of_fits (h : badAddress s.base n.toNat = none) :
    exec (.drw x y n) s = .next (s.drawn (s.drawPixels x y n)) := by
  simp only [exec, execDrw, h, State.drawn]

/-- A DRW collides exactly where a pixel that one of its 1 bits lands on was set (R285). -/
theorem collides_drawPixels_iff (s : State) (x y : Reg) (n : Nibble) (d : Display) :
    (xorPixels (s.drawPixels x y n) d).2 = true ↔ ∃ p, Hits s x y n p ∧ pixelAt d p = true := by
  simp only [(xorPixels_spec (nodup_drawPixels s x y n) d).2, mem_drawPixels]

/-- A DRW toggles each pixel that one of its 1 bits lands on (R283, R284). -/
theorem pixelAt_drawPixels_of_hits {p : Pixel} (h : Hits s x y n p) (d : Display) :
    pixelAt (xorPixels (s.drawPixels x y n) d).1 p = !pixelAt d p :=
  ((xorPixels_spec (nodup_drawPixels s x y n) d).1 p).trans (if_pos (mem_drawPixels.mpr h))

/-- A DRW leaves every pixel that none of its 1 bits lands on (R283, R284). -/
theorem pixelAt_drawPixels_of_not_hits {p : Pixel} (h : ¬ Hits s x y n p) (d : Display) :
    pixelAt (xorPixels (s.drawPixels x y n) d).1 p = pixelAt d p :=
  ((xorPixels_spec (nodup_drawPixels s x y n) d).1 p).trans (if_neg (mt mem_drawPixels.mp h))

/-- The first address of an access that lies above 4095 is the one its range check names (R72). -/
theorem add_eq_max_of_first_outside {a k : Nat} (hout : 4095 < a + k) (hbelow : ∀ j < k, a + j ≤ 4095) :
    a + k = max a 4096 := by
  cases k with
  | zero => omega
  | succ j =>
    have hlast := hbelow j (Nat.lt_succ_self j)
    omega

/-- Settles O51, by the range check: no pixel of a sprite stands twice in `drawPixels`, so each is toggled once. -/
theorem drawSprite : Obligations.DrawSprite := by
  unfold Obligations.DrawSprite
  refine ⟨fun _ => decode_row_drw, fun x y n s => ⟨fun hfits => ?fits, fun k hk hout hbelow => ?overrun⟩⟩
  case fits =>
    have hcollides := collides_drawPixels_iff s x y n s.display
    have hVF := getV_drawn_VF s (s.drawPixels x y n)
    refine ⟨_, exec_drw_of_fits (badAddress_eq_none.mpr hfits), fun p hp => pixelAt_drawPixels_of_hits hp _,
      fun p hp => pixelAt_drawPixels_of_not_hits hp _, fun hset => ?collision, fun hclear => ?noCollision,
      fun r hr => getV_drawn_of_ne hr _, rfl, fun _ => rfl⟩
    case collision => exact hVF.trans (congrArg flagByte (hcollides.mpr hset))
    case noCollision =>
      have hnone : ¬ ∃ p, Hits s x y n p ∧ pixelAt s.display p = true := by
        rintro ⟨p, hp, hset⟩
        exact absurd (hclear p hp) (by simp [hset])
      exact hVF.trans (congrArg flagByte (Bool.eq_false_iff.mpr (mt hcollides.mp hnone)))
  case overrun =>
    rw [add_eq_max_of_first_outside hout hbelow]
    exact stops_of_overrun (exec_drw_of_badAddress x y n) (by omega) (by omega)

/-! ### The same sprite drawn twice -/

/-- Toggling different pixels a second time gives back the buffer (R286). -/
theorem xorPixels_xorPixels {ps : List Pixel} (hp : ps.Nodup) (d : Display) :
    (xorPixels ps (xorPixels ps d).1).1 = d := by
  refine display_ext fun q => ?_
  rw [(xorPixels_spec hp _).1, (xorPixels_spec hp d).1]
  split <;> simp

/-- Pixels toggled twice from a clear buffer collide the second time, unless there are none (R286). -/
theorem collides_xorPixels_clear_iff {ps : List Pixel} (hp : ps.Nodup) :
    (xorPixels ps (xorPixels ps clearDisplay).1).2 = true ↔ ∃ q, q ∈ ps := by
  rw [(xorPixels_spec hp _).2]
  refine exists_congr fun q => and_iff_left_of_imp fun hq => ?_
  rw [(xorPixels_spec hp _).1, if_pos hq, pixelAt_clearDisplay, Bool.not_false]

theorem readBytes_congr {a m : Nat} (h : ∀ k < m, t.readByte (a + k) = s.readByte (a + k)) :
    t.readBytes a m = s.readBytes a m :=
  List.map_congr_left fun k hk => h k (List.mem_range.mp hk)

/-- The pixels of a DRW depend on I, the sprite's bytes and the coordinates alone (R283). -/
theorem drawPixels_congr {x' y' : Reg} (hi : t.i = s.i)
    (hbytes : ∀ k < n.toNat, t.readByte (s.base + k) = s.readByte (s.base + k)) (hx : t.getV x' = s.getV x)
    (hy : t.getV y' = s.getV y) : t.drawPixels x' y' n = s.drawPixels x y n := by
  have hbase : t.base = s.base := congrArg BitVec.toNat hi
  rw [State.drawPixels, State.drawPixels, hbase, hx, hy, readBytes_congr hbytes]

/-- A byte that is not 0 has a 1 bit, counted from the left as a sprite's row is drawn (R280). -/
theorem exists_bit_iff_ne_zero (b : Byte) : (∃ c < 8, b.getLsbD (7 - c) = true) ↔ b ≠ 0 := by
  constructor
  · rintro ⟨c, -, hc⟩ rfl
    simp at hc
  · intro hb
    by_contra hnone
    refine hb (BitVec.eq_of_getLsbD_eq fun k hk => ?_)
    have hbit : ¬ b.getLsbD (7 - (7 - k)) = true := fun h => hnone ⟨7 - k, by omega, h⟩
    rw [show 7 - (7 - k) = k by omega] at hbit
    simpa using hbit

/-- A sprite lands on some pixel exactly where one of its bytes is not 0. -/
theorem exists_hits_iff (s : State) (x y : Reg) (n : Nibble) :
    (∃ p, Hits s x y n p) ↔ ∃ k, k < n.toNat ∧ s.readByte (s.base + k) ≠ 0 := by
  simp only [← exists_bit_iff_ne_zero]
  constructor
  · rintro ⟨p, k, hk, b, hb, hbit, -⟩
    exact ⟨k, hk, b, hb, hbit⟩
  · rintro ⟨k, hk, b, hb, hbit⟩
    exact ⟨(Fin.ofNat 64 _, Fin.ofNat 32 _), k, hk, b, hb, hbit, rfl, rfl⟩

/-- Settles O52: the second DRW toggles the pixels of the first, which gives the display back
(`xorPixels_xorPixels`). -/
theorem redrawRestores : Obligations.RedrawRestores := by
  unfold Obligations.RedrawRestores
  intro x y n s t hexec x' y' t' hdisplay hi hbytes hx hy
  obtain ⟨hfits, rfl⟩ : badAddress s.base n.toNat = none ∧ t = s.drawn (s.drawPixels x y n) := execDrw_next hexec
  have hnodup := nodup_drawPixels s x y n
  have hsame := drawPixels_congr hi hbytes hx hy
  have hbase : t'.base = s.base := congrArg BitVec.toNat hi
  refine ⟨_, exec_drw_of_fits (hbase ▸ hfits), ?restored, fun hclear => ?flag⟩
  case restored => rw [drawn_display, hsame, hdisplay, drawn_display, xorPixels_xorPixels hnodup]
  case flag =>
    have hcollides := collides_xorPixels_clear_iff hnodup
    simp only [mem_drawPixels, exists_hits_iff] at hcollides
    rw [getV_drawn_VF, hsame, hdisplay, drawn_display, hclear, flagByte]
    simp only [hcollides]

end Sys2Proof.Machine
end

section
/-! PROOFS. The statements about the keys and the timers (45_input_timers.md), with the lemmas they rest on. -/

namespace Sys2Proof.Machine

variable {s : State} {v : Byte}

/-! ### The key operand above 0xF (R311) -/

theorem keyDown_of_notPressed (hv : 15 < v.toNat) (hp : s.cfg.keyIndexPolicy = .notPressed) :
    s.keyDown v = (false, s) := by
  rw [State.keyDown, if_neg hv.not_ge, hp]

theorem keyDown_of_lowNibble (hv : 15 < v.toNat) (hp : s.cfg.keyIndexPolicy = .lowNibble) :
    s.keyDown v = (keyBit s.keys (v.toNat % 16), s) := by
  rw [State.keyDown, if_neg hv.not_ge, hp]

theorem keyDown_of_draw (hv : 15 < v.toNat) (hp : s.cfg.keyIndexPolicy = .draw) :
    s.keyDown v = (s.choiceByte.getLsbD 0, s.takeChoice) := by
  rw [State.keyDown, if_neg hv.not_ge, hp]

theorem getLsbD_zero_flagByte (c : Bool) : (flagByte c).getLsbD 0 = c := by
  cases c <;> decide

/-- A supply whose next free choice is `down`. -/
def Supply.choosing (down : Bool) : Supply := ⟨[flagByte down], 0⟩

/-- Under `Draw` the read answers the choice that is supplied, so either answer is possible. -/
theorem keyDown_choosing (hv : 15 < v.toNat) (hp : s.cfg.keyIndexPolicy = .draw) (down : Bool) :
    ((s.setChoices (.choosing down)).keyDown v).1 = down := by
  rw [keyDown_of_draw (s := s.setChoices (.choosing down)) hv hp]
  exact getLsbD_zero_flagByte down

/-! ### SKP and SKNP -/

/-- A skip on a key read replaces the supply of free choices and PC alone. -/
theorem keyDown_skipIf (s : State) (v : Byte) (c : Bool) :
    (s.keyDown v).2.skipIf c =
      { s with choices := (s.keyDown v).2.choices, pc := if c then s.pc + 2 else s.pc } := by
  rw [skipIf_eq, keyDown_state]
  rfl

theorem exec_skp (x : Reg) (s : State) :
    exec (.skp x) s = .next { s with
      choices := (s.keyDown (s.getV x)).2.choices
      pc := if (s.keyDown (s.getV x)).1 then s.pc + 2 else s.pc } :=
  congrArg Host.Outcome.next (keyDown_skipIf s _ _)

theorem exec_sknp (x : Reg) (s : State) :
    exec (.sknp x) s = .next { s with
      choices := (s.keyDown (s.getV x)).2.choices
      pc := if (s.keyDown (s.getV x)).1 then s.pc else s.pc + 2 } := by
  refine congrArg Host.Outcome.next ((keyDown_skipIf s _ _).trans ?_)
  cases (s.keyDown (s.getV x)).1 <;> rfl

/-- Settles O53: the level is what `keyDown` reads in each of its cases, and a free choice is read as queued. -/
theorem keySkips : Obligations.KeySkips := by
  unfold Obligations.KeySkips
  refine ⟨⟨fun _ => decode_row_skp, fun _ => decode_row_sknp⟩, fun x s => ?level, fun x s down hv hp => ?draw⟩
  case level =>
    refine ⟨_, _, fun hv => ?inDomain, fun hv hp => ?notPressed, fun hv hp => ?lowNibble, exec_skp x s, exec_sknp x s⟩
    case inDomain => rw [keyDown_of_le s hv]; exact ⟨rfl, rfl⟩
    case notPressed => rw [keyDown_of_notPressed hv hp]; exact ⟨rfl, rfl⟩
    case lowNibble => rw [keyDown_of_lowNibble hv hp]; exact ⟨rfl, rfl⟩
  case draw =>
    have hdown := keyDown_choosing hv hp down
    refine ⟨.choosing down, _, _, exec_skp x _, ?skp, exec_sknp x _, ?sknp⟩
    case skp => exact congrArg (fun c : Bool => if c then s.pc + 2 else s.pc) hdown
    case sknp => exact congrArg (fun c : Bool => if c then s.pc else s.pc + 2) hdown

/-! ### The timers and the sound output -/

/-- Settles O54: each transfer is one update of its field, and the sound output compares ST with 0. -/
theorem timerTransfers : Obligations.TimerTransfers := by
  unfold Obligations.TimerTransfers
  refine ⟨⟨fun _ => decode_row_ldVxDT, fun _ => decode_row_ldDTVx, fun _ => decode_row_ldSTVx⟩, fun x s => ?ldVxDT,
    fun x s => ?ldDTVx, fun x s => ?ldSTVx, fun s => ?sound⟩
  case ldVxDT => exact ⟨_, rfl, getV_setV_same s x _, onlyRegs_setV s x _⟩
  case ldDTVx | ldSTVx => exact ⟨_, rfl, rfl, fun _ => rfl⟩
  case sound => exact bne_iff_ne

/-! ### LD Vx,K -/

/-- LD Vx,K replaces the mode and, under the edge trigger, the snapshot of the keys alone (R316). -/
theorem exec_ldVxK (x : Reg) (s : State) :
    exec (.ldVxK x) s = .next ((s.setMode (.awaitingKey x)).setLastKeys
      (match s.cfg.keyWaitTrigger with | .level => s.lastKeys | .edge => s.keys)) :=
  congrArg Host.Outcome.next (snapshotKeys_eq (s.setMode (.awaitingKey x)))

/-- Settles O55, by the trigger: the keys go into the snapshot under the edge trigger alone. -/
theorem keyWaitEntered : Obligations.KeyWaitEntered := by
  unfold Obligations.KeyWaitEntered
  refine ⟨fun _ => decode_row_ldVxK, fun x s => ⟨_, exec_ldVxK x s, fun htrig => ?level, fun htrig => ?edge, rfl,
    fun _ => rfl⟩⟩
  case level | edge => rw [setLastKeys_lastKeys, htrig]

end Sys2Proof.Machine
end

section
/-! PROOFS. The statements about errors, ticks and the key wait (60_exceptions.md), with the lemmas they rest on. -/

namespace Sys2Proof.Machine

variable {s t : State} {i : Instr} {e : Fault}

/-! ### Where an instruction stops -/

/-- The condition on which an instruction stops, and the error it stops with (R341, R344). -/
def StopsWith (i : Instr) (s : State) (e : Fault) : Prop :=
  match i with
  | .ret => s.stack = [] ∧ e = .stackUnderflow
  | .call _ => 16 ≤ s.stack.length ∧ e = .stackOverflow
  | .ldB _ => ∃ a, badAddress s.base 3 = some a ∧ e = .addressOutOfRange a
  | .storeRegs x | .loadRegs x => ∃ a, badAddress s.base (x.val + 1) = some a ∧ e = .addressOutOfRange a
  | .drw _ _ n => ∃ a, badAddress s.base n.toNat = some a ∧ e = .addressOutOfRange a
  | _ => False

theorem exec_eq_fault_iff : exec i s = .fault e ↔ StopsWith i s e := by
  cases i
  case ret =>
    rcases pop_cases s with ⟨hs, hp⟩ | ⟨l, a, hs, hp⟩
    · simp [exec, execRet, StopsWith, hp, hs, eq_comm]
    · simp [exec, execRet, StopsWith, hp, hs]
  case call =>
    rcases push_cases s s.pc with ⟨hs, hp⟩ | ⟨hs, hp⟩
    · simp [exec, execCall, StopsWith, hp, hs.not_ge]
    · simp [exec, execCall, StopsWith, hp, hs, eq_comm]
  case ldB => cases hb : badAddress s.base 3 <;> simp [exec, execLdB, StopsWith, hb, eq_comm]
  case storeRegs x =>
    cases hb : badAddress s.base (x.val + 1) <;> simp [exec, execStoreRegs, StopsWith, hb, eq_comm]
  case loadRegs x =>
    cases hb : badAddress s.base (x.val + 1) <;> simp [exec, execLoadRegs, StopsWith, hb, eq_comm]
  case drw n => cases hb : badAddress s.base n.toNat <;> simp [exec, execDrw, StopsWith, hb, eq_comm]
  all_goals exact iff_of_false nofun id

/-- Settles O25: an answer is a next state or an error, and an error is the one `exec_eq_fault_iff` names. -/
theorem oneErrorKindPerInstruction : Obligations.OneErrorKindPerInstruction := by
  unfold Obligations.OneErrorKindPerInstruction
  intro i s
  cases h : exec i s with
  | next t => exact .inl ⟨t, rfl⟩
  | refused q => exact absurd h (exec_ne_refused i s q)
  | fault e =>
    have hstops := exec_eq_fault_iff.mp h
    right
    cases i
    case ret | call =>
      obtain ⟨-, rfl⟩ := hstops
      rfl
    case ldB | storeRegs | loadRegs | drw =>
      obtain ⟨a, hb, rfl⟩ := hstops
      obtain ⟨-, -, hout, -⟩ := badAddress_eq_some hb
      exact ⟨a, hout, rfl⟩
    all_goals exact hstops

/-! ### The same error again -/

/-- `t` is as `s` in all that decides whether a `step()` answers an error, and which. -/
structure SameForErrors (s t : State) : Prop where
  loaded : t.loaded = s.loaded
  mode : t.mode = s.mode
  pc : t.pc = s.pc
  i : t.i = s.i
  stack : t.stack = s.stack
  mem : t.mem = s.mem
  cfg : t.cfg = s.cfg

theorem sameForErrors_takeCall (s : State) : SameForErrors s s.takeCall.2 :=
  ⟨takeCall_loaded s, takeCall_mode s, takeCall_pc s, takeCall_i s, takeCall_stack s, takeCall_mem s, takeCall_cfg s⟩

theorem SameForErrors.fetchWord (h : SameForErrors s t) : t.fetchWord = s.fetchWord :=
  fetchWord_of_sameCells h.mem h.cfg (congrArg BitVec.toNat h.pc)

/-- An instruction that stops reads the stack or I to do so, and nothing else. -/
theorem exec_fault_congr (h : exec i s = .fault e) (hi : t.i = s.i) (hstack : t.stack = s.stack) :
    exec i t = .fault e := by
  have hbase : t.base = s.base := congrArg BitVec.toNat hi
  rw [exec_eq_fault_iff] at h ⊢
  simpa only [StopsWith, hbase, hstack] using h

/-- A `step()` that answers an error is one in Running mode whose fetch lies outside memory, whose word is unknown
under `Halt`, or whose instruction stops. -/
theorem stepCall_fault (h : stepCall s = .fault e) :
    s.loaded = true ∧ s.mode = .running ∧
      ((∃ a, badAddress s.pc.toNat 2 = some a ∧ e = .addressOutOfRange a) ∨
        (s.pc.toNat ≤ 4094 ∧
          ((∃ w, decode s.fetchWord = .unknown w ∧ unknownStep w s = .fault e) ∨
            ∃ i, decode s.fetchWord = .instr i ∧ exec i (s.setPc (s.pc + 2)) = .fault e))) := by
  by_cases hl : s.loaded = true
  case neg => rw [stepCall_of_unloaded hl] at h; cases h
  cases hm : s.mode with
  | awaitingKey r => rw [stepCall_of_awaiting hl hm] at h; cases h
  | running =>
    rw [stepCall_of_running hl hm] at h
    refine ⟨hl, rfl, ?_⟩
    cases hb : badAddress s.pc.toNat 2 with
    | some a =>
      rw [runningStep_of_badAddress hb] at h
      cases h
      exact .inl ⟨a, rfl, rfl⟩
    | none =>
      have hp : s.pc.toNat ≤ 4094 := Nat.le_of_add_le_add_right (add_le_of_badAddress_eq_none hb (Nat.succ_pos 1))
      refine .inr ⟨hp, ?_⟩
      cases hd : decode s.fetchWord with
      | unknown w => exact .inl ⟨w, rfl, runningStep_of_unknown hp hd ▸ h⟩
      | instr i => exact .inr ⟨i, rfl, runningStep_of_decode hp hd ▸ h⟩

theorem unknownStep_fault_congr {w : Word} (hcfg : t.cfg = s.cfg) (h : unknownStep w s = .fault e) :
    unknownStep w t = .fault e := by
  unfold unknownStep at h ⊢
  rw [hcfg]
  cases hpol : s.cfg.unknownOpcodePolicy with
  | halt => rwa [hpol] at h
  | skip => rw [hpol] at h; cases h

/-- The error of a `step()` depends on no register but I and PC, and on neither keys, timers nor the host. -/
theorem stepCall_fault_congr (h : stepCall s = .fault e) (hst : SameForErrors s t) : stepCall t = .fault e := by
  obtain ⟨hl, hm, h⟩ := stepCall_fault h
  rw [stepCall_of_running (hst.loaded.trans hl) (hst.mode.trans hm)]
  rw [← hst.pc, ← hst.fetchWord] at h
  rcases h with ⟨a, hb, rfl⟩ | ⟨hp, ⟨w, hd, h⟩ | ⟨i, hd, h⟩⟩
  · exact runningStep_of_badAddress hb
  · rw [runningStep_of_unknown hp hd]
    exact unknownStep_fault_congr hst.cfg h
  · rw [runningStep_of_decode hp hd]
    exact exec_fault_congr h hst.i hst.stack

theorem stepCall_takeCall_fault (h : stepCall s = .fault e) : stepCall s.takeCall.2 = .fault e :=
  stepCall_fault_congr h (sameForErrors_takeCall s)

/-- Settles O26: every call but a load leaves all that decides the error. -/
theorem sameErrorAgain : Obligations.SameErrorAgain := by
  unfold Obligations.SameErrorAgain
  intro s e h
  have hcall := stepCall_takeCall_fault h
  refine ⟨fun hn => returnsError_of_stepCall hn hcall,
    fun keys dt st => stepCall_fault_congr h ⟨rfl, rfl, rfl, rfl, rfl, rfl, rfl⟩, fun t hstep hload => ?_⟩
  have hnext := step_next hstep
  cases hc : s.takeCall.1 <;> rw [hc] at hnext <;> dsimp only at hnext
  case step =>
    rcases hnext with hgoes | ⟨e', -, -, rfl⟩
    · cases hcall.symm.trans hgoes
    · exact stepCall_fault_congr hcall ⟨rfl, rfl, rfl, rfl, rfl, rfl, rfl⟩
  case load image => exact absurd hc (hload image)
  case tick | setKeys =>
    subst hnext
    exact stepCall_fault_congr hcall ⟨rfl, rfl, rfl, rfl, rfl, rfl, rfl⟩

/-! ### Ticks -/

theorem step_of_tick (h : s.takeCall.1 = .tick) : step s = .next (tick s.takeCall.2) := by
  rw [step, nextCall, h]
  rfl

/-- A timer above 0 goes down by one, and one at 0 stays (R360). -/
theorem countDown_spec (b : Byte) :
    (0 < b.toNat → (countDown b).toNat = b.toNat - 1) ∧ (b = 0 → countDown b = 0) :=
  ⟨fun _ => toNat_countDown b, fun h => by rw [h]; rfl⟩

/-- Settles O15: the step is a `tick`, which counts both timers down. -/
theorem tickCountsDown : Obligations.TickCountsDown := by
  unfold Obligations.TickCountsDown
  intro s h
  obtain ⟨hdt, hdt0⟩ := countDown_spec s.dt
  obtain ⟨hst, hst0⟩ := countDown_spec s.st
  rw [← takeCall_dt s] at hdt hdt0 ⊢
  rw [← takeCall_st s] at hst hst0 ⊢
  exact ⟨_, step_of_tick h, hdt, hdt0, hst, hst0, rfl, takeCall_readByte s⟩

/-- A host that goes on reports the error of a `step()` and keeps the block (R343). -/
theorem step_of_fault (hn : StepIsNext s) (ho : s.onError = .goOn) (h : stepCall s = .fault e) :
    step s = .next (s.takeCall.2.emit (.error e)) := by
  rw [step_of_stepIsNext hn, stepCall_takeCall_fault h, react, takeCall_onError, ho]

/-- Settles O27: the failing step leaves the timers to the tick behind it. -/
theorem tickRunsAfterAnyError : Obligations.TickRunsAfterAnyError := by
  unfold Obligations.TickRunsAfterAnyError
  intro s e rest ho hcalls h
  have hqueue := takeCall_of_queued s hcalls
  have hfails := step_of_fault (congrArg Prod.fst hqueue) ho h
  rw [hqueue] at hfails
  have hticks : step ((s.setCalls (.tick :: rest)).emit (.error e)) =
      .next (tick ((s.setCalls rest).emit (.error e))) := step_of_tick rfl
  obtain ⟨hdt, hdt0⟩ := countDown_spec s.dt
  obtain ⟨hst, hst0⟩ := countDown_spec s.st
  exact ⟨_, _, hfails, hticks, hdt, hdt0, hst, hst0, rfl, fun _ => rfl⟩

/-! ### The key wait -/

/-- How a `step()` can leave the mode: as it was, in a wait entered by LD Vr,K, or in Running by a wait that stored a
qualifying key (R145, R316). -/
def KeepsEntersOrCompletes (s t : State) : Prop :=
  t.mode = s.mode ∨
    (∃ r, s.mode = .running ∧ t.mode = .awaitingKey r ∧ decode s.fetchWord = .instr (.ldVxK r)) ∨
    ∃ r k, s.mode = .awaitingKey r ∧ t.mode = .running ∧ KeyQualifies s k ∧ t.getV r = BitVec.ofNat 8 k ∧ t.pc = s.pc

/-- LD Vx,K alone changes the mode. -/
theorem exec_mode (h : exec i s = .next t) :
    t.mode = s.mode ∨ ∃ r, i = .ldVxK r ∧ t.mode = .awaitingKey r := by
  obtain ⟨-, -, -, -, -, -, hmode, -⟩ := writersOfOtherState i s t h
  cases i
  case ldVxK r =>
    rw [exec_ldVxK] at h
    cases h
    exact .inr ⟨r, rfl, rfl⟩
  all_goals exact .inl hmode.1

theorem awaitStep_mode {r : Reg} (hm : s.mode = .awaitingKey r) : KeepsEntersOrCompletes s (awaitStep r s) := by
  by_cases hk : ∃ k, KeyQualifies s k
  · obtain ⟨k, hk, heq⟩ := awaitStep_of_some (r := r) hk
    rw [heq]
    exact .inr (.inr ⟨r, k, hm, rfl, hk, getV_setV_same s r _, rfl⟩)
  · rw [awaitStep_of_none (not_exists.mp hk), snapshotKeys_eq]
    exact .inl rfl

theorem stepCall_mode (h : stepCall s = .next t) : KeepsEntersOrCompletes s t := by
  rcases (stepCall_next h).2 with ⟨r, hm, rfl⟩ | ⟨hm, -, ⟨i, hd, h⟩ | ⟨w, -, -, rfl⟩⟩
  · exact awaitStep_mode hm
  · rcases exec_mode h with hkept | ⟨r, rfl, hentered⟩
    · exact .inl hkept
    · exact .inr (.inl ⟨r, hm, hentered, hd⟩)
  · exact .inl rfl

/-- A machine step changes the mode as a `step()` can, or is a load, after which the block is Running. -/
theorem step_mode (h : step s = .next t) :
    KeepsEntersOrCompletes s t ∨ (t.mode = .running ∧ ∃ image, s.takeCall.1 = .load image) := by
  have h := step_next h
  cases hc : s.takeCall.1 <;> rw [hc] at h <;> dsimp only at h
  case step =>
    left
    rcases h with h | ⟨e, -, -, rfl⟩
    · simpa only [KeepsEntersOrCompletes, takeCall_mode, takeCall_fetchWord, keyQualifies_takeCall, takeCall_pc]
        using stepCall_mode h
    · exact .inl (takeCall_mode s)
  case tick | setKeys =>
    subst h
    exact .inl (.inl (takeCall_mode s))
  case load image =>
    rcases h with ⟨-, rfl⟩ | ⟨-, rfl⟩
    · exact .inr ⟨rfl, image, rfl⟩
    · exact .inl (.inl (takeCall_mode s))

/-- Settles O30: of the ways `step_mode` lists, each change of mode leaves its own. -/
theorem awaitEnteredAndLeft : Obligations.AwaitEnteredAndLeft := by
  unfold Obligations.AwaitEnteredAndLeft
  intro s t h
  rcases step_mode h with (hkept | ⟨r, hs, ht, hd⟩ | ⟨r, k, hs, ht, hstored⟩) | ⟨ht, hload⟩
  · rw [hkept]
    exact ⟨fun r hs hs' => (nomatch hs.symm.trans hs'), fun r q hs hs' => Mode.awaitingKey.inj (hs'.symm.trans hs),
      fun r hs hs' => (nomatch hs.symm.trans hs')⟩
  · simp [hs, ht, hd]
  · simp only [hs, ht]
    exact ⟨nofun, nofun, fun q hq _ => .inl ⟨k, Mode.awaitingKey.inj hq ▸ hstored⟩⟩
  · rw [ht]
    exact ⟨nofun, nofun, fun _ _ _ => .inr hload⟩

end Sys2Proof.Machine
end

section
/-! PROOFS. The statements about reset and the first load (70_reset_and_hazards.md), with the lemmas they rest on. -/

namespace Sys2Proof.Machine

variable {s t : State} {image : List Byte}

/-! ### The two answers of a load -/

/-- An image that does not fit is an error with its length (R392). -/
theorem load_of_oversized (h : 3584 < image.length) (s : State) :
    load image s = .error (.programTooLarge image.length) := by
  simp [load, imageFits, maxImageLength, Nat.not_le.mpr h]

/-- A load that succeeds is the reset with an image that fits. -/
theorem load_ok (h : load image s = .ok t) : image.length ≤ 3584 ∧ t = resetWith image s := by
  by_cases hl : image.length ≤ 3584
  · rw [load_of_fits hl] at h
    exact ⟨hl, (Except.ok.inj h).symm⟩
  · rw [load_of_oversized (Nat.lt_of_not_le hl)] at h
    cases h

theorem step_of_load_ok (hc : s.takeCall.1 = .load image) (h : load image s.takeCall.2 = .ok t) :
    step s = .next t := by
  simp only [step, nextCall, hc, call, h, react]

/-- A load that fails is reported, and the host goes on (R392; log 11). -/
theorem step_of_load_error {e : Fault} (hc : s.takeCall.1 = .load image) (h : load image s.takeCall.2 = .error e) :
    step s = .next (s.takeCall.2.emit (.error e)) := by
  simp only [step, nextCall, hc, call, h, react]

/-- An error reported by a machine step that goes on is what its call returned. -/
theorem reply_emit_takeCall (s : State) (e : Fault) :
    reply s (.next (s.takeCall.2.emit (.error e))) = some e := by
  simp [reply]

/-! ### Before the first load -/

/-- Where no load has succeeded, a `step()` is refused (R394). -/
theorem step_of_unloaded (hl : s.loaded = false) (hn : StepIsNext s) : step s = .refused .stepBeforeLoad := by
  rw [step_of_stepIsNext hn, stepCall_of_unloaded (by simp [hl])]
  rfl

/-! ### The settled statements -/

/-- Settles O17: one case is the reset, with memory read outside and inside the bytes of the image, the other the
report of the error. -/
theorem loadResetsTheBlock : Obligations.LoadResetsTheBlock := by
  unfold Obligations.LoadResetsTheBlock
  intro s image hc
  refine ⟨fun hl => ⟨_, step_of_load_ok hc (load_of_fits hl _), fun a _ h => ?image, fun a ha => ?font,
    fun a ha hout => ?rest, ?fields⟩, fun hl => ?oversized⟩
  case image =>
    obtain ⟨k, rfl⟩ := Nat.exists_eq_add_of_le h.1
    simpa only [Nat.add_sub_cancel_left] using readByte_resetWith_inside (Nat.add_lt_add_iff_left.mp h.2) s.takeCall.2
  case font =>
    rw [readByte_resetWith_outside (by omega), takeCall_cfg]
    exact dif_pos ha
  case rest =>
    rw [readByte_resetWith_outside hout, takeCall_cfg]
    exact dif_neg (Nat.not_lt.mpr ha)
  case fields => simp only [resetWith, takeCall_cfg]
  case oversized =>
    have hstep := step_of_load_error hc (load_of_oversized hl _)
    exact ⟨load_of_oversized hl s, hstep ▸ reply_emit_takeCall s _, _, hstep, rfl, takeCall_readByte s⟩

/-- Settles O14: a queued `step()` is the next one, and the reset a load ends in sets the load record. -/
theorem stepBeforeLoadRefused : Obligations.StepBeforeLoadRefused := by
  unfold Obligations.StepBeforeLoadRefused
  refine ⟨fun s => step_of_unloaded, fun s rest hl hcalls => step_of_unloaded hl ?queued, fun _ => rfl,
    fun image s t h => ?loaded⟩
  case queued => exact congrArg Prod.fst (takeCall_of_queued s hcalls)
  case loaded =>
    obtain ⟨-, rfl⟩ := load_ok h
    rfl

end Sys2Proof.Machine
end

section
/-! PROOFS. The statements about what the model adds to the spec: the form of the host's calls, what a load leaves as it
was, State.reset, and the placing of a word. -/

namespace Sys2Proof.Machine

variable {s : State}

/-! ### The host's calls, the load, State.reset -/

theorem takeCall_of_repeats {c : HostCall} {more : List HostCall} (hc : s.calls = []) (hp : s.plan = .repeats c more) :
    s.takeCall = (c, s.setCalls more) := by
  simp only [State.takeCall, hc, hp]

/-- Settles O8: one case for a queued call, and one for each form of the plan. -/
theorem hostCallsInOrder : Obligations.HostCallsInOrder :=
  ⟨fun s _ _ => takeCall_of_queued s, fun _ _ _ => takeCall_of_repeats, fun _ _ => takeCall_of_free⟩

/-- Settles O18: a load that succeeds is the reset, which names none of these fields. -/
theorem loadKeepsTheRest : Obligations.LoadKeepsTheRest := by
  unfold Obligations.LoadKeepsTheRest
  intro image s t h
  obtain ⟨-, rfl⟩ := load_ok h
  exact ⟨rfl, rfl, rfl, rfl⟩

/-- Settles O20: the empty image fits, and the reset it ends in changes the load record of a constructed block alone. -/
theorem resetIsLoadOfEmptyImage : Obligations.ResetIsLoadOfEmptyImage :=
  ⟨fun c => load_of_fits (Nat.zero_le _) (State.constructed c), rfl, rfl, rfl, rfl, rfl, rfl, rfl⟩

/-! ### Placing a word -/

/-- Where `placeFetchWord` puts the word: at PC, or at 0x200 where no word fits at PC (log 18). -/
def State.placedPc (s : State) : Word := if s.pc.toNat < maxAddress then s.pc else 0x200

theorem toNat_placedPc_le (s : State) : s.placedPc.toNat ≤ 4094 := by
  unfold State.placedPc
  split
  case isTrue h => exact Nat.le_of_lt_succ h
  case isFalse => decide

/-- Where a word fits at PC, it is placed there. -/
theorem placedPc_of_fits (h : s.pc.toNat < 4095) : s.placedPc = s.pc := if_pos h

theorem withFetchWord_toNat (s : State) (w : Word) : s.withFetchWord 16 w.toNat = placeFetchWord s w := by
  rw [State.withFetchWord, Nat.mod_eq_of_lt w.isLt, BitVec.ofNat_toNat, BitVec.setWidth_eq]

section
variable (s : State) (w : Word)

@[simp] theorem placeFetchWord_pc : (placeFetchWord s w).pc = s.placedPc := rfl
@[simp] theorem placeFetchWord_calls : (placeFetchWord s w).calls = .step :: s.calls := rfl

/-- The placed word is the one the fetch reads, high byte first. -/
theorem fetchWord_placeFetchWord : (placeFetchWord s w).fetchWord = w := by
  have hhigh : (placeFetchWord s w).readByte s.placedPc.toNat = highByte w :=
    readByte_writeBytes_inside (k := 0) _ (bs := [highByte w, lowByte w]) (by simp)
  have hlow : (placeFetchWord s w).readByte (s.placedPc.toNat + 1) = lowByte w :=
    readByte_writeBytes_inside (k := 1) _ (bs := [highByte w, lowByte w]) (by simp)
  rw [State.fetchWord, placeFetchWord_pc, hhigh, hlow, wordOfBytes_bytes]

/-- Every address but the word's two reads as before. -/
theorem readByte_placeFetchWord_outside {a : Nat} (hhigh : a ≠ s.placedPc.toNat) (hlow : a ≠ s.placedPc.toNat + 1) :
    (placeFetchWord s w).readByte a = s.readByte a := by
  have hout : a < s.placedPc.toNat ∨ s.placedPc.toNat + [highByte w, lowByte w].length ≤ a := by
    simp only [List.length_cons, List.length_nil]
    omega
  exact readByte_writeBytes_outside _ hout

theorem takeCall_placeFetchWord :
    (placeFetchWord s w).takeCall = (.step, (placeFetchWord s w).setCalls s.calls) :=
  takeCall_of_queued _ (placeFetchWord_calls s w)

theorem ready_placeFetchWord : Ready (placeFetchWord s w) := ⟨rfl, rfl, rfl⟩

end

/-- Settles O34: the placed word decodes to the instruction, and the step runs it as O7 says, PC past it and the call
made. -/
theorem placedWordRuns : Obligations.PlacedWordRuns := by
  unfold Obligations.PlacedWordRuns
  intro s i
  rw [withFetchWord_toNat]
  obtain ⟨hstop, hnext, -⟩ := stepRunsDecodedInstruction (placeFetchWord s (encode i)) i (ready_placeFetchWord s _)
    (toNat_placedPc_le s) ((congrArg decode (fetchWord_placeFetchWord s _)).trans (decode_encode i))
  rw [takeCall_placeFetchWord] at hstop hnext
  refine ⟨_, hstop, hnext, rfl, rfl, rfl, rfl, fun hp => ?pc, fun hp a hhigh hlow => ?memory⟩
  case pc => rw [setPc_pc, placeFetchWord_pc, placedPc_of_fits hp]
  case memory =>
    rw [← placedPc_of_fits hp] at hhigh hlow
    exact readByte_placeFetchWord_outside s _ hhigh hlow

end Sys2Proof.Machine
end
